-- ==== Sys2Proof/Config.lean ====
section
/-! DEFINITION. What one implementation of the quadrature decoder core (QDC) fixes, and the values the spec leaves
to the world outside it: the slot limit (R5), the accumulator width (R6), the bus address (R7), and the answers of
the Byte Source (R31, R32). The three `opaque` constants have no body: nothing in Lean can evaluate them. -/

namespace Sys2Proof.Config

/-- `MAX_SLOTS = 2`, "a hardware constraint, not an arbitrary limit" (00_scope.md R5). -/
abbrev maxSlots : Nat := 2

/-- `ENC_WIDTH` (W): the width of each accumulator, 32 for this hardware (00_scope.md R6; log entry 8). -/
abbrev encWidth : Nat := 32

/-- `ADDRESS`, the 7-bit bus address the block is constructed with: a parameter the spec leaves open
(00_scope.md R7, decision D11; log entry 7). Free: any value, 0 to 127. -/
opaque address : BitVec 7

/-- What the Byte Source does about an outstanding read beyond the answers a state lists: `some b` answers with the
byte `b`, `none` does not answer yet. Free, "under no law" (20_memory.md R31, R40; log entries 2 and 3). -/
opaque freeRead : Nat → Option (BitVec 8)

/-- The same for an outstanding probe: `some ack` answers, `none` does not answer yet. Free
(20_memory.md R32, R40; log entries 2 and 3). -/
opaque freeProbe : Nat → Option Bool

end Sys2Proof.Config
end

