-- ==== Sys2Proof/Word.lean ====
section
/-! DEFINITION. The words of the hardware, each a bit vector of the width the spec gives it, and the two slots. -/

namespace Sys2Proof

/-- Format S: the sample byte (30_encoding.md R44, R45). -/
abbrev Byte := BitVec 8

/-- A 2-bit quadrature phase, gray code (10_state.md R15). -/
abbrev Phase := BitVec 2

/-- Format T: the 4-bit transition code (30_encoding.md R44, R49). -/
abbrev TransCode := BitVec 4

/-- Format C: the 11-bit command word (30_encoding.md R44, R54). -/
abbrev CmdWord := BitVec 11

/-- The 8-bit unsigned operand of a command, `cmd[7:0]` (30_encoding.md R54). -/
abbrev Arg := BitVec 8

/-- A 7-bit bus address of the Byte Source (00_scope.md R7). -/
abbrev BusAddr := BitVec 7

/-- One direction accumulator: W bits (10_state.md R16). -/
abbrev Acc := BitVec Config.encWidth

/-- The two encoder channels: slot 0 in the low nibble of the sample, slot 1 in the high nibble (R5, R45). -/
inductive Slot where
  | slot0
  | slot1
  deriving DecidableEq, Repr

/-- The slot number i. -/
def Slot.index : Slot → Nat
  | .slot0 => 0
  | .slot1 => 1

end Sys2Proof
end

