-- ==== Sys2Proof/Syntax.lean ====
section
/-! DEFINITION. The seven commands of the QDC (30_encoding.md R56), one constructor per row of
spec/opcode_table.json. Every command has the one format C (R54), so every constructor carries its eight `arg` bits;
for the five operations without an operand they are ignored (R61; log entry 10). -/

namespace Sys2Proof

inductive Instr where
  /-- BEGIN, `begin(slot_count) -> bool` (40_lifecycle_ops.md R64). -/
  | begin (slotCount : Arg)
  /-- ISCONN, `is_connected() -> bool` (40_lifecycle_ops.md R65). -/
  | isconn (ignored : Arg)
  /-- INIT, `initialize()` (40_lifecycle_ops.md R66). -/
  | init (ignored : Arg)
  /-- HASCHG, `has_changed() -> bool` (41_poll_ops.md R69). -/
  | haschg (ignored : Arg)
  /-- UPDATE, `update() -> bool` (41_poll_ops.md R70). -/
  | update (ignored : Arg)
  /-- UPDSGL, `update_single() -> bool` (41_poll_ops.md R71). -/
  | updsgl (ignored : Arg)
  /-- KEY, `is_key_pressed(slot) -> bool` (42_button_ops.md R85). -/
  | key (slot : Arg)
  deriving DecidableEq, Repr

end Sys2Proof
end

