-- ==== Sys2Proof/WellFormed.lean ====
section
/-! DEFINITION. What a caller may write. Every term of `Instr` is a legal command (R58, R59, R61: all 256 operand
values are legal), so the checks are the two the spec puts on the writer of a program: no reserved command word
(R60) and, in assembled text, zero in the ignored operand bits (R61, R62). The machine enforces neither. -/

namespace Sys2Proof

/-- The word is none of the reserved words 0x000 to 0x0FF (30_encoding.md R60: "A caller shall not issue it"). -/
def CmdWord.admitted (w : CmdWord) : Bool :=
  w.extractLsb' 8 3 != 0#3

/-- A program, a finite list of command words (R62, R124), holds no reserved word. -/
def programAdmitted (p : List CmdWord) : Bool :=
  p.all CmdWord.admitted

/-- The command as an assembler writes it: `arg = 0x00` where the operation has no operand (30_encoding.md R61). -/
def Instr.assembled : Instr → Bool
  | .begin _ => true
  | .isconn a => a == 0
  | .init a => a == 0
  | .haschg a => a == 0
  | .update a => a == 0
  | .updsgl a => a == 0
  | .key _ => true

end Sys2Proof
end

