-- ==== Sys2Proof/Decode.lean ====
section
/-! DEFINITION. The decoder of the 11-bit command word, total on every word, and the encoder
(30_encoding.md R54, R56, R60, R61). -/

namespace Sys2Proof

/-- Why a command word is no command. -/
inductive DecodeError where
  /-- Opcode 0, words 0x000 to 0x0FF: reserved (30_encoding.md R60). -/
  | reservedOpcode (arg : Arg)
  deriving DecidableEq, Repr

/-- `op = cmd[10:8]` (R54). -/
def opField (w : CmdWord) : BitVec 3 :=
  w.extractLsb' 8 3

/-- `arg = cmd[7:0]` (R54). -/
def argField (w : CmdWord) : Arg :=
  w.extractLsb' 0 8

/-- The command a word selects by the opcode map of R56; opcode 0 is refused by name (R60). -/
def decode (w : CmdWord) : Except DecodeError Instr :=
  let arg := argField w
  match (opField w).toNat with
  | 1 => .ok (.begin arg)
  | 2 => .ok (.isconn arg)
  | 3 => .ok (.init arg)
  | 4 => .ok (.haschg arg)
  | 5 => .ok (.update arg)
  | 6 => .ok (.updsgl arg)
  | 7 => .ok (.key arg)
  | _ => .error (.reservedOpcode arg)

/-- The opcode of each command (the `op` column of R56). -/
def opcodeOf : Instr → BitVec 3
  | .begin _ => 1
  | .isconn _ => 2
  | .init _ => 3
  | .haschg _ => 4
  | .update _ => 5
  | .updsgl _ => 6
  | .key _ => 7

/-- The eight operand bits of each command. -/
def argOf : Instr → Arg
  | .begin a => a
  | .isconn a => a
  | .init a => a
  | .haschg a => a
  | .update a => a
  | .updsgl a => a
  | .key a => a

/-- The command word of a command: `{op, arg}` (R54, R62). -/
def encode (i : Instr) : CmdWord :=
  opcodeOf i ++ argOf i

/-- A number as a word of the 11-bit command port; a number of more bits is no command word (log entry 13). -/
def portWord (w : Nat) : Option CmdWord :=
  if w < 2 ^ 11 then some (BitVec.ofNat 11 w) else none

/-- The instruction the decoder reads from a word numbered as spec/opcode_table.json numbers it: the one word of
11 bits, bit 0 the least significant (R54). `_nbits`, the row's length in whole bytes, adds nothing. -/
def decodeTableWord (_nbits w : Nat) : Option Instr :=
  match portWord w with
  | some c => (decode c).toOption
  | none => none

end Sys2Proof
end

