-- ==== Sys2Proof/Machine/State.lean ====
section
/-! DEFINITION. The state of the QDC (10_state.md R10, R21), the world around it as plain data (R37, R124), the
reasons a step can stop, and the state after reset (R24). -/

namespace Sys2Proof.Machine

/-- A register per slot: the two entries of `lastPos[0..1]` or `encoder[0..1]` (00_scope.md R5). -/
structure PerSlot (α : Type) where
  slot0 : α
  slot1 : α
  deriving DecidableEq, Repr

/-- The hidden sequencing state (10_state.md R21). -/
inductive SeqState where
  /-- No command in progress. -/
  | idle
  /-- A command has been accepted, its Byte Source transaction has been issued, and the answer has not come back;
  `cmd` is the latched command word. -/
  | wait (cmd : CmdWord)
  deriving DecidableEq, Repr

/-- The three things the caller can do (70_reset_and_hazards.md R124). -/
inductive CallerAct where
  /-- Present a command word on the command port. -/
  | present (cmd : CmdWord)
  /-- Apply reset; `address` is the address strapped at that reset (R106; log entry 6). -/
  | reset (address : BusAddr)
  /-- Look at the observation port: no effect (10_state.md R20). Also stands for a step in which the caller does nothing. -/
  | observe
  deriving DecidableEq, Repr

/-- What a command delivers (30_encoding.md R55). -/
inductive Result where
  /-- The one-bit result: 1 is `true`. -/
  | bit (b : Bool)
  /-- INIT returns no value (log entry 11). -/
  | noValue
  deriving DecidableEq, Repr

/-- What passes the block's ports, in order (20_memory.md R39). -/
inductive Event where
  /-- `MemRead(address, 1)` is requested (R31). -/
  | readRequest (address : BusAddr)
  /-- The Byte Source answers the read with a byte. -/
  | readAnswer (value : Byte)
  /-- `Probe(address)` is requested (R32). -/
  | probeRequest (address : BusAddr)
  /-- The Byte Source answers the probe. -/
  | probeAnswer (ack : Bool)
  /-- A command commits and its result is delivered (R38). -/
  | done (result : Result)
  /-- The caller applies reset (R104). -/
  | reset (address : BusAddr)
  deriving DecidableEq, Repr

/-- The whole state. The first four fields are the architectural state (R10), `seq` the hidden state (R21),
`address` the configuration taken at reset (R7, R106). The last five are the model's own (log entries 1 to 5): what the
caller will do, what the Byte Source will answer, a counter for free answers, and the record of what passed the ports. -/
structure State where
  /-- Number of active slots (R11). -/
  count : BitVec 2
  /-- The sample byte last committed; bits 2 and 6 are the button-state latch (R12, R13). -/
  lastValue : Byte
  /-- The phase tracker of each slot (R15). -/
  lastPos : PerSlot Phase
  /-- The direction accumulator of each slot (R16). -/
  encoder : PerSlot Acc
  /-- The sequencing state (R21). -/
  seq : SeqState
  /-- `ADDRESS`, constant between resets (R7, R14, R106). -/
  address : BusAddr
  /-- The caller's coming actions, the next one first (R37, R124). -/
  caller : List CallerAct
  /-- What the Byte Source does at each coming step with a read outstanding: `some b` answers, `none` not yet (R31, R40). -/
  reads : List (Option Byte)
  /-- The same for probes (R32, R40). -/
  probes : List (Option Bool)
  /-- How many free answers have been drawn beyond the lists (log entry 3). -/
  draws : Nat
  /-- What has passed the ports, oldest first (R39). -/
  trace : List Event
  deriving DecidableEq, Repr

/-- What the read-only observation port shows (10_state.md R20). -/
structure Observation where
  count : BitVec 2
  lastValue : Byte
  lastPos0 : Phase
  lastPos1 : Phase
  encoder0 : Acc
  encoder1 : Acc
  deriving DecidableEq, Repr

/-- The QDC has no fault outcome: "No behaviour of this block is treated as `fault`" (93_implementation_defined.md
section 2; 60_exceptions.md R88, R93). So no constructor; nothing raises one. -/
inductive Fault : Type
  deriving DecidableEq, Repr

/-- Reasons to give an instruction no meaning. -/
inductive Refusal where
  /-- Raised by an arm of `exec` for an instruction without a meaning yet; no arm of this model raises it. Safe. -/
  | notModelled (mnemonic : String)
  deriving DecidableEq, Repr

/-- The machine right after reset: every field of the architectural state zero and `seq = IDLE` (10_state.md R24);
the address as strapped (R106); no caller action, no listed answer and an empty record (log entries 1, 2, 3, 5, 7). -/
def State.reset : State where
  count := 0
  lastValue := 0x00
  lastPos := ⟨0, 0⟩
  encoder := ⟨0, 0⟩
  seq := .idle
  address := Config.address
  caller := []
  reads := []
  probes := []
  draws := 0
  trace := []

end Sys2Proof.Machine
end

