-- ==== Sys2Proof/Machine/Operands.lean ====
section
/-! DEFINITION. Operands, the fields of the sample byte, the transition code and its two outcome tables
(30_encoding.md R45 to R59). -/

namespace Sys2Proof.Machine

/-- BEGIN's operand: the value stored is `min(slot_count, 2)` (R58). -/
def clampSlotCount (slotCount : Arg) : BitVec 2 :=
  BitVec.ofNat 2 (min slotCount.toNat Config.maxSlots)

/-- KEY's operand: the slot it names, none for 2 to 255 (R59). -/
def keySlot (arg : Arg) : Option Slot :=
  if arg = 0 then some .slot0 else if arg = 1 then some .slot1 else none

/-- `currentpos = (value >> (4*i)) & 0x03` (R47). -/
def phaseOf (i : Slot) (value : Byte) : Phase :=
  ((value >>> (4 * i.index)) &&& 0x03#8).setWidth 2

/-- `change = (lastPos[i] << 2) | currentpos`: previous phase in the high two bits (R49). -/
def transCode (prev cur : Phase) : TransCode :=
  (prev.setWidth 4 <<< 2) ||| cur.setWidth 4

/-- The four classes of transition code (R50). -/
inductive TransClass where
  | same
  | fwd
  | rev
  | dbl
  deriving DecidableEq, Repr

/-- The class of a code, by the sets of R50; SAME is the remainder. -/
def classify (change : TransCode) : TransClass :=
  if change ∈ [0b0001#4, 0b0111#4, 0b1110#4, 0b1000#4] then .fwd
  else if change ∈ [0b0010#4, 0b0100#4, 0b1101#4, 0b1011#4] then .rev
  else if change ∈ [0b0011#4, 0b0110#4, 0b1001#4, 0b1100#4] then .dbl
  else .same

/-- `delta_U`, the outcome table of UPDATE (R51). -/
def deltaU (change : TransCode) : Int :=
  match classify change with
  | .same => 0
  | .fwd => 1
  | .rev => -1
  | .dbl => 0

/-- `delta_S`, the outcome table of UPDSGL (R52); the +3 of a reverse step is intended. -/
def deltaS (change : TransCode) : Int :=
  match classify change with
  | .same => 0
  | .fwd => 1
  | .rev => 3
  | .dbl => 2

/-- `encoder[i] +_W delta`: addition modulo `2^W` (41_poll_ops.md R80, R81, R82). -/
def addDelta (e : Acc) (delta : Int) : Acc :=
  e + BitVec.ofInt Config.encWidth delta

/-- The active slots in the order of the slot loop: slot 0, then slot 1, as far as `count` allows (10_state.md R11, R22;
log entry 15 for the value 3, which is never held). -/
def activeSlots (count : BitVec 2) : List Slot :=
  [.slot0, .slot1].take count.toNat

end Sys2Proof.Machine
end

