-- ==== Sys2Proof/Machine/Flags.lean ====
section
/-! DEFINITION. The block has no flags register (10_state.md R18). Its flag-like signals are the two button bits of
`lastValue`, and the comparison that gives the result of the polls. -/

namespace Sys2Proof.Machine

/-- The mask of a slot's button bit: 0x04 for slot 0, 0x40 for slot 1 (30_encoding.md R48). -/
def buttonMask : Slot → Byte
  | .slot0 => 0x04
  | .slot1 => 0x40

/-- Active low: pressed is `(lastValue & mask) == 0` (30_encoding.md R48, 10_state.md R18). -/
def buttonPressed (i : Slot) (lastValue : Byte) : Bool :=
  (lastValue &&& buttonMask i) == 0

/-- KEY's result: the latched button of slot 0 or 1, and 0 for an operand of 2 or more (42_button_ops.md R85, R87). -/
def keyResult (arg : Arg) (lastValue : Byte) : Bool :=
  match keySlot arg with
  | some i => buttonPressed i lastValue
  | none => false

/-- Whether a fresh sample differs from the latched one: all eight bits are compared (30_encoding.md R46, 41_poll_ops.md R69). -/
def sampleDiffers (value lastValue : Byte) : Bool :=
  value != lastValue

end Sys2Proof.Machine
end

