-- ==== Sys2Proof/Machine/Ops.lean ====
section
/-! DEFINITION. The shared operations: register access, the two Byte Source transactions, commit, the slot loop and
the slot decoder, reset, and what a step does next. The block takes no exception and returns from none
(60_exceptions.md R88, R96, R97), so there is no operation for either; its abnormal event is reset. -/

namespace Sys2Proof.Machine

/-- The entry of one slot. -/
def PerSlot.get {α : Type} (p : PerSlot α) : Slot → α
  | .slot0 => p.slot0
  | .slot1 => p.slot1

/-- The same pair with the entry of one slot replaced. -/
def PerSlot.set {α : Type} (p : PerSlot α) (i : Slot) (v : α) : PerSlot α :=
  match i with
  | .slot0 => { p with slot0 := v }
  | .slot1 => { p with slot1 := v }

/-! ### Register writes (10_state.md R10) -/

/-- `count <- v`. -/
def State.setCount (s : State) (v : BitVec 2) : State := { s with count := v }

/-- `lastValue <- v`. -/
def State.setLastValue (s : State) (v : Byte) : State := { s with lastValue := v }

/-- `lastPos[i] <- v`. -/
def State.setLastPos (s : State) (i : Slot) (v : Phase) : State := { s with lastPos := s.lastPos.set i v }

/-- `encoder[i] <- v`. -/
def State.setEncoder (s : State) (i : Slot) (v : Acc) : State := { s with encoder := s.encoder.set i v }

/-- What the observation port shows: the committed architectural state (10_state.md R20). -/
def State.observed (s : State) : Observation where
  count := s.count
  lastValue := s.lastValue
  lastPos0 := s.lastPos.get .slot0
  lastPos1 := s.lastPos.get .slot1
  encoder0 := s.encoder.get .slot0
  encoder1 := s.encoder.get .slot1

/-! ### The ports -/

/-- An event passes a port. -/
def State.record (s : State) (e : Event) : State := { s with trace := s.trace ++ [e] }

/-- A command with a transaction is accepted: the word is latched and the one request goes out (10_state.md R21,
20_memory.md R38). In WAIT the request is already out, and nothing is issued again ("no retry logic", R39). -/
def State.issue (s : State) (cmd : CmdWord) (request : Event) : State :=
  match s.seq with
  | .idle => { s with seq := .wait cmd, trace := s.trace ++ [request] }
  | .wait _ => s

/-- The commit of a command: its result is delivered and the block is back in IDLE (20_memory.md R38). -/
def State.commit (s : State) (r : Result) : State := { s with seq := .idle, trace := s.trace ++ [.done r] }

/-- What the Byte Source does now about an outstanding read: the next listed answer, or a free one beyond the list
(20_memory.md R31; log entries 2 and 3). -/
def State.nextRead (s : State) : Option Byte :=
  match s.reads with
  | a :: _ => a
  | [] => Config.freeRead s.draws

/-- The Byte Source has been looked at for a read: the listed answer is used up, or one free answer is drawn. -/
def State.advanceRead (s : State) : State :=
  match s.reads with
  | _ :: rest => { s with reads := rest }
  | [] => { s with draws := s.draws + 1 }

/-- What the Byte Source does now about an outstanding probe (20_memory.md R32). -/
def State.nextProbe (s : State) : Option Bool :=
  match s.probes with
  | a :: _ => a
  | [] => Config.freeProbe s.draws

/-- The Byte Source has been looked at for a probe. -/
def State.advanceProbe (s : State) : State :=
  match s.probes with
  | _ :: rest => { s with probes := rest }
  | [] => { s with draws := s.draws + 1 }

/-- One read transaction of the command `cmd` (20_memory.md R31, R38): the request is issued; once the byte is there,
`k` computes and writes everything at one commit; without an answer the block stays in WAIT and writes nothing (R40). -/
def State.readThen (s : State) (cmd : CmdWord) (k : Byte → State → State) : State :=
  let waiting := s.issue cmd (.readRequest s.address)
  match waiting.nextRead with
  | some value => k value (waiting.advanceRead.record (.readAnswer value))
  | none => waiting.advanceRead

/-- One probe transaction of the command `cmd` (20_memory.md R32, R38), in the same way. -/
def State.probeThen (s : State) (cmd : CmdWord) (k : Bool → State → State) : State :=
  let waiting := s.issue cmd (.probeRequest s.address)
  match waiting.nextProbe with
  | some ack => k ack (waiting.advanceProbe.record (.probeAnswer ack))
  | none => waiting.advanceProbe

/-! ### The slot loop and the slot decoder -/

/-- `for i in 0 .. count-1`: the body for slot 0, then for slot 1, as far as `count` allows (10_state.md R22). -/
def State.forActive (s : State) (body : Slot → State → State) : State :=
  (activeSlots s.count).foldl (fun t i => body i t) s

/-- INIT's loop body: `lastPos[i] <- (value >> (4*i)) & 0x03` (40_lifecycle_ops.md R66). -/
def seedSlot (value : Byte) (i : Slot) (s : State) : State :=
  s.setLastPos i (phaseOf i value)

/-- `DecodeSlot(i, value, delta)` (41_poll_ops.md R72): the accumulator takes the outcome of the transition from the old
phase, and the phase tracker always moves on. -/
def decodeSlot (delta : TransCode → Int) (value : Byte) (i : Slot) (s : State) : State :=
  let currentpos := phaseOf i value
  let change := transCode (s.lastPos.get i) currentpos
  (s.setEncoder i (addDelta (s.encoder.get i) (delta change))).setLastPos i currentpos

/-- What UPDATE and UPDSGL do with the fresh byte; they "share identical control flow differing only in the outcome
table" (41_poll_ops.md R70, R71): an equal byte changes nothing and gives 0 (R74), any other is decoded and latched. -/
def pollWith (delta : TransCode → Int) (value : Byte) (s : State) : State :=
  if sampleDiffers value s.lastValue then
    ((s.forActive (decodeSlot delta value)).setLastValue value).commit (.bit true)
  else
    s.commit (.bit false)

/-! ### Reset and the next action -/

/-- Reset (70_reset_and_hazards.md R104, R105, R106): every field of the block takes its reset value, the address is
taken, a command in progress is abandoned. What is outside the block, and the record, stays (log entry 6). -/
def State.applyReset (s : State) (address : BusAddr) (rest : List CallerAct) : State :=
  { State.reset with
    address := address
    caller := rest
    reads := s.reads
    probes := s.probes
    draws := s.draws
    trace := s.trace ++ [.reset address] }

/-- What the next step does. -/
inductive NextAction where
  /-- No command runs; the state becomes `t`. -/
  | settle (t : State)
  /-- The command word `cmd`, just accepted or latched, runs in state `t`. -/
  | run (cmd : CmdWord) (t : State)
  deriving DecidableEq, Repr

/-- The next action (20_memory.md R38, 70_reset_and_hazards.md R105, R124): reset is taken at any time; a presented word
is accepted in IDLE only and stays presented in WAIT; in WAIT the latched command goes on; an idle block stays ready.
DESIGN CHOICE (log entry 20): the spec does not say what becomes of a word presented in WAIT and not yet accepted when reset
comes. Here the held word keeps its place at the head of the list, so a reset listed behind it is taken only once that word
has been accepted, which on a stalled bus is never; a reset applied while a word is held is listed before it. -/
def State.nextAction (s : State) : NextAction :=
  match s.seq, s.caller with
  | _, .reset address :: rest => .settle (s.applyReset address rest)
  | .idle, .present cmd :: rest => .run cmd { s with caller := rest }
  | .idle, .observe :: rest => .settle { s with caller := rest }
  | .idle, [] => .settle s
  | .wait cmd, .observe :: rest => .run cmd { s with caller := rest }
  | .wait cmd, _ => .run cmd s

/-- The caller action that presents a number on the command port; a number of more than 11 bits presents nothing. -/
def presentWord (w : Nat) : CallerAct :=
  match portWord w with
  | some cmd => .present cmd
  | none => .observe

/-- The block ready (IDLE) and the word presented as the caller's next action. -/
def State.placeWord (s : State) (w : Nat) : State :=
  { s with seq := .idle, caller := presentWord w :: s.caller }

end Sys2Proof.Machine
end

