-- ==== Sys2Proof/Machine/Button.lean ====
section
/-! DEFINITION. The button operation KEY (42_button_ops.md). -/

namespace Sys2Proof.Machine

/-- KEY (R85, R87): a pure function of `lastValue`; no transaction, commits at once, looks at no other register. -/
def execKey (slot : Arg) (s : State) : Host.Outcome State Fault Refusal :=
  .next (s.commit (.bit (keyResult slot s.lastValue)))

end Sys2Proof.Machine
end

