-- ==== Sys2Proof/Machine/Lifecycle.lean ====
section
/-! DEFINITION. The lifecycle operations BEGIN, ISCONN, INIT (40_lifecycle_ops.md). -/

namespace Sys2Proof.Machine

/-- BEGIN (R64): one probe; at commit `count <- min(arg, 2)`, whether it was acknowledged or not, and the result is the
acknowledgment. -/
def execBegin (slotCount : Arg) (s : State) : Host.Outcome State Fault Refusal :=
  .next (s.probeThen (encode (.begin slotCount)) fun ack t =>
    (t.setCount (clampSlotCount slotCount)).commit (.bit ack))

/-- ISCONN (R65): one probe, whose acknowledgment is the result; nothing is written. -/
def execIsconn (ignored : Arg) (s : State) : Host.Outcome State Fault Refusal :=
  .next (s.probeThen (encode (.isconn ignored)) fun ack t => t.commit (.bit ack))

/-- INIT (R66): one read; `lastValue` takes the byte and `lastPos[i]` of every active slot its phase; no value is returned. -/
def execInit (ignored : Arg) (s : State) : Host.Outcome State Fault Refusal :=
  .next (s.readThen (encode (.init ignored)) fun value t =>
    ((t.setLastValue value).forActive (seedSlot value)).commit .noValue)

end Sys2Proof.Machine
end

