-- ==== Sys2Proof/Machine/Polling.lean ====
section
/-! DEFINITION. The polling operations HASCHG, UPDATE, UPDSGL (41_poll_ops.md). -/

namespace Sys2Proof.Machine

/-- HASCHG (R69): one read; the result says whether the byte differs from `lastValue`; the byte is dropped. -/
def execHaschg (ignored : Arg) (s : State) : Host.Outcome State Fault Refusal :=
  .next (s.readThen (encode (.haschg ignored)) fun value t =>
    t.commit (.bit (sampleDiffers value t.lastValue)))

/-- UPDATE (R70): one read, decoded with the outcome table `delta_U`. -/
def execUpdate (ignored : Arg) (s : State) : Host.Outcome State Fault Refusal :=
  .next (s.readThen (encode (.update ignored)) (pollWith deltaU))

/-- UPDSGL (R71): one read, decoded with the outcome table `delta_S`. -/
def execUpdsgl (ignored : Arg) (s : State) : Host.Outcome State Fault Refusal :=
  .next (s.readThen (encode (.updsgl ignored)) (pollWith deltaS))

end Sys2Proof.Machine
end

