-- ==== Sys2Proof/Machine/Dispatch.lean ====
section
/-! DEFINITION. The dispatch of the seven commands (30_encoding.md R56), one arm per constructor of `Instr`. -/

namespace Sys2Proof.Machine

def exec (i : Instr) (s : State) : Host.Outcome State Fault Refusal :=
  match i with
  -- lifecycle operations
  | .begin slotCount => Sys2Proof.Machine.execBegin slotCount s
  | .isconn ignored => Sys2Proof.Machine.execIsconn ignored s
  | .init ignored => Sys2Proof.Machine.execInit ignored s
  -- polling operations
  | .haschg ignored => Sys2Proof.Machine.execHaschg ignored s
  | .update ignored => Sys2Proof.Machine.execUpdate ignored s
  | .updsgl ignored => Sys2Proof.Machine.execUpdsgl ignored s
  -- button operation
  | .key slot => Sys2Proof.Machine.execKey slot s

end Sys2Proof.Machine
end

