-- ==== Sys2Proof/Machine/Reserved.lean ====
section
/-! DEFINITION. The reserved opcode 0, which is no instruction of the table. -/

namespace Sys2Proof.Machine

/-- A reserved command word: "the QDC changes no state, issues no Byte Source transaction and returns `result = 0`"
(30_encoding.md R60, 60_exceptions.md R92; log entry 9). -/
def execReserved (s : State) : Host.Outcome State Fault Refusal :=
  .next (s.commit (.bit false))

end Sys2Proof.Machine
end

