-- ==== Sys2Proof/Machine/Step.lean ====
section
/-! DEFINITION. One step of the machine: one caller action, or one look at the Byte Source by the command in progress.
There is no program counter and no fetch (10_state.md R22): the next command is the word the caller presents. -/

namespace Sys2Proof.Machine

/-- One step (20_memory.md R38, R39, R40). A command whose answer is there when it is accepted takes one step; one whose
answer is late stays in WAIT and takes a step for every look at the Byte Source (log entry 4). -/
def step (s : State) : Host.Outcome State Fault Refusal :=
  match s.nextAction with
  | .settle t => .next t
  | .run cmd t =>
    match decode cmd with
    | .ok i => exec i t
    | .error _ => execReserved t

/-- The state with a command word presented as the caller's next action, so that the very next step accepts and runs it
(log entries 1 and 13). `_nbits`, the row's length in whole bytes, adds nothing: every command has 11 bits (R54). -/
def State.withFetchWord (s : State) (_nbits w : Nat) : State :=
  s.placeWord w

end Sys2Proof.Machine
end

