-- ==== Sys2Proof/Safety.lean ====
section
/-! DEFINITION. The vocabulary of the claims: the command a step runs, what passed the ports, the end of a run, and
the invariants of the machine (10_state.md R26, R27; 20_memory.md R39). -/

namespace Sys2Proof.Machine

/-- A transaction of the Byte Source port (20_memory.md R35). -/
inductive Transaction where
  | none
  | read
  | probe
  deriving DecidableEq, Repr

/-- The one transaction of each command: the table of 20_memory.md R35. -/
def transactionOf : Instr → Transaction
  | .begin _ => .probe
  | .isconn _ => .probe
  | .init _ => .read
  | .haschg _ => .read
  | .update _ => .read
  | .updsgl _ => .read
  | .key _ => .none

/-- The command that the coming step runs: the word just accepted in IDLE, or the latched one in WAIT. -/
def State.commandNow (s : State) : Option Instr :=
  match s.nextAction with
  | .settle _ => none
  | .run cmd _ => (decode cmd).toOption

/-- The caller's next action is a reset. -/
def State.resetNext (s : State) : Bool :=
  match s.caller with
  | .reset _ :: _ => true
  | _ => false

/-- The action presents a command word. -/
def CallerAct.isPresent : CallerAct → Bool
  | .present _ => true
  | .reset _ => false
  | .observe => false

/-- The action applies reset. -/
def CallerAct.isReset : CallerAct → Bool
  | .reset _ => true
  | .present _ => false
  | .observe => false

/-- The event is a request on the Byte Source port. -/
def Event.isRequest : Event → Bool
  | .readRequest _ => true
  | .probeRequest _ => true
  | .readAnswer _ => false
  | .probeAnswer _ => false
  | .done _ => false
  | .reset _ => false

/-- The requests on the Byte Source port among some events, in order. -/
def requestsOf (events : List Event) : List Event :=
  events.filter Event.isRequest

/-- The results delivered, in order: with the observation port, the outcome of a run (70_reset_and_hazards.md R124). -/
def resultsOf : List Event → List Result
  | [] => []
  | .done r :: rest => r :: resultsOf rest
  | _ :: rest => resultsOf rest

/-- `n` steps of the machine. -/
def runSteps (n : Nat) (s : State) : Host.Outcome State Fault Refusal :=
  Sys2Proof.core.run n s

/-- A run has ended: the caller has nothing more to do and the block is back in IDLE (70_reset_and_hazards.md R124).
DESIGN CHOICE (log entry 21): R124 ends a run when its last command has committed and does not speak of reset within a run. Here
a run whose last command was abandoned by reset has ended too, once the caller's list is empty, and a listed look at the
observation port that is not yet taken keeps a run from having ended. -/
def State.ended (s : State) : Bool :=
  s.caller.isEmpty && s.seq == .idle

/-- `G2B(p)`: the position of a phase on the gray-code cycle 0, 1, 3, 2 (00_scope.md R8), used only in derived laws. -/
def grayPosition (p : Phase) : Nat :=
  match p.toNat with
  | 0 => 0
  | 1 => 1
  | 3 => 2
  | _ => 3

/-- Slot i is active: `i < count` (10_state.md R11). -/
def State.slotActive (s : State) (i : Slot) : Prop :=
  i.index < s.count.toNat

/-- "Legal values are 0, 1 and 2; the value 3 is never held" (10_state.md R11, R26). -/
abbrev State.CountLegal (s : State) : Prop :=
  s.count.toNat ≤ 2

/-- Every active slot's phase tracker holds the phase bits of the latched sample: the exact form R27 gives the
document's invariant. -/
def State.Synced (s : State) : Prop :=
  ∀ i : Slot, s.slotActive i → s.lastPos.get i = phaseOf i s.lastValue

/-- Where the ports stand. -/
inductive PortStatus where
  /-- No transaction under way. -/
  | quiet
  /-- A read has been requested and not answered. -/
  | readOut
  /-- A probe has been requested and not answered. -/
  | probeOut
  /-- The answer has come and the result has not been delivered. -/
  | answered
  /-- Something passed out of order. -/
  | broken
  deriving DecidableEq, Repr

/-- How an event moves the ports: "request(c1), answer(c1), commit(c1), request(c2), answer(c2), commit(c2), and so on"
(20_memory.md R39); KEY commits without a transaction (R38); reset is taken at any time (R105). -/
def PortStatus.after : PortStatus → Event → PortStatus
  | .broken, _ => .broken
  | _, .reset _ => .quiet
  | .quiet, .readRequest _ => .readOut
  | .quiet, .probeRequest _ => .probeOut
  | .quiet, .done _ => .quiet
  | .readOut, .readAnswer _ => .answered
  | .probeOut, .probeAnswer _ => .answered
  | .answered, .done _ => .quiet
  | _, _ => .broken

/-- Where the ports stand after all that has passed. -/
def portStatus (trace : List Event) : PortStatus :=
  trace.foldl PortStatus.after .quiet

/-- Where the ports must stand: quiet in IDLE; in WAIT the latched command's one transaction is out. -/
def SeqState.portStatus : SeqState → PortStatus
  | .idle => .quiet
  | .wait cmd =>
    match decode cmd with
    | .error _ => .broken
    | .ok i =>
      match transactionOf i with
      | .none => .broken
      | .read => .readOut
      | .probe => .probeOut

/-- All that passed the ports is in the order of 20_memory.md R39, and the block waits exactly while the latched
command's transaction is out (R21, R38). -/
def State.Orderly (s : State) : Prop :=
  Machine.portStatus s.trace = s.seq.portStatus ∧ s.seq.portStatus ≠ .broken

end Sys2Proof.Machine
end

