-- ==== Sys2Proof/Certificates/Slice0/Obligations.lean ====
section
/-! DEFINITION. The statements for the provers. Hypotheses used throughout: `s.seq = .idle` (a command is accepted only in
IDLE, 20_memory.md R38), `s.seq = .wait (encode i)` (the command `i` was accepted and its answer has not come, 10_state.md
R21), and `s.nextRead = some b` or `s.nextProbe = some ack` (the Byte Source answers the transaction, 20_memory.md R31, R32).
The last holds of a listed answer and of a free one alike; no statement rests on a free value. A statement about `exec`
without a premise on `seq` also covers another command than the latched one in WAIT, which is the model's choice of log
entry 17. -/

open Sys2Proof Sys2Proof.Machine

/-! ### Encoding -/

/-- Every command, with every operand, is read back from its word (30_encoding.md R54, R56; the format is the spec's
decision D2). -/
def Obligations.DecodeInvertsEncode : Prop :=
  ∀ i : Instr, decode (encode i) = .ok i

/-- Every word that is a command is the word of that command alone (R54, R56; decision D2). That no bit is dropped and no two
words are one command is the model's choice, log entry 10: `Instr` keeps the operand bits that R61 says are ignored. -/
def Obligations.DecodedWordIsItsEncoding : Prop :=
  ∀ (w : CmdWord) (i : Instr), decode w = .ok i → encode i = w

/-- "A word `w` selects the row for which `(w & mask) == match`" (R56), with `arg = cmd[7:0]` (R54), and opcode 0 is
reserved (R60). Decisions D2 and D3 of the spec. -/
def Obligations.WordSelectsItsOpcodeRow : Prop :=
  ∀ w : CmdWord,
    (w &&& 0x700 = 0x000 → decode w = .error (.reservedOpcode (w.setWidth 8))) ∧
    (w &&& 0x700 = 0x100 → decode w = .ok (.begin (w.setWidth 8))) ∧
    (w &&& 0x700 = 0x200 → decode w = .ok (.isconn (w.setWidth 8))) ∧
    (w &&& 0x700 = 0x300 → decode w = .ok (.init (w.setWidth 8))) ∧
    (w &&& 0x700 = 0x400 → decode w = .ok (.haschg (w.setWidth 8))) ∧
    (w &&& 0x700 = 0x500 → decode w = .ok (.update (w.setWidth 8))) ∧
    (w &&& 0x700 = 0x600 → decode w = .ok (.updsgl (w.setWidth 8))) ∧
    (w &&& 0x700 = 0x700 → decode w = .ok (.key (w.setWidth 8)))

/-- Words written out from R54 and R56 decode as the spec's vectors say (95_test_vectors.md section 2.1). -/
def Obligations.SpecVectorWordsDecode : Prop :=
  decode 0b00100000101#11 = .ok (.begin 5) ∧
  decode 0b01000000000#11 = .ok (.isconn 0) ∧
  decode 0b01100000000#11 = .ok (.init 0) ∧
  decode 0b10000000000#11 = .ok (.haschg 0) ∧
  decode 0b10111111111#11 = .ok (.update 255) ∧
  decode 0b11000000000#11 = .ok (.updsgl 0) ∧
  decode 0b11100000001#11 = .ok (.key 1) ∧
  decode 0b00011111111#11 = .error (.reservedOpcode 255)

/-- "all 256 values select the same operation with the same behaviour" (R61; decision D4): two forms of one operation
differ in nothing but the ignored bits of the word latched while the block waits. -/
def Obligations.IgnoredOperandHasNoEffect : Prop :=
  ∀ (f : Arg → Instr), f ∈ [Instr.isconn, Instr.init, Instr.haschg, Instr.update, Instr.updsgl] →
    ∀ (a b : Arg) (s : State), ∃ t u, exec (f a) s = .next t ∧ exec (f b) s = .next u ∧
      { u with seq := t.seq } = t ∧
      (u.seq = t.seq ∨ (s.seq = .idle ∧ t.seq = .wait (encode (f a)) ∧ u.seq = .wait (encode (f b))))

/-! ### Reset -/

/-- Every field of the architectural state is zero and `seq` is IDLE at reset (10_state.md R24), the caller has issued
nothing and no transaction has been made (70_reset_and_hazards.md R104). The zero values are the spec's decision D10. -/
def Obligations.ResetStateIsZeroAndIdle : Prop :=
  State.reset.count = 0 ∧ State.reset.lastValue = 0x00 ∧
  (∀ i : Slot, State.reset.lastPos.get i = 0 ∧ State.reset.encoder.get i = 0) ∧
  State.reset.seq = .idle ∧ State.reset.trace = []

/-- Reset is taken at any time, in IDLE and in WAIT (70_reset_and_hazards.md R104, R105; decisions D10, D26): the
registers take their reset values, the command in progress delivers nothing, no transaction is made. What stays of the
world outside (the coming answers and the record) is the model's choice, log entry 6. -/
def Obligations.ResetAbandonsTheCommandInProgress : Prop :=
  ∀ (s : State) (a : BusAddr) (rest : List CallerAct), s.caller = .reset a :: rest →
    ∃ t, step s = .next t ∧ t.observed = State.reset.observed ∧ t.seq = .idle ∧ t.address = a ∧
      t.caller = rest ∧ t.trace = s.trace ++ [.reset a] ∧
      t.reads = s.reads ∧ t.probes = s.probes ∧ t.draws = s.draws

/-- "`ADDRESS` is taken at reset and is constant until the next reset" (70_reset_and_hazards.md R106). -/
def Obligations.AddressChangesOnlyAtReset : Prop :=
  ∀ s t : State, step s = .next t →
    (∀ a rest, s.caller = .reset a :: rest → t.address = a) ∧
    (s.resetNext = false → t.address = s.address)

/-! ### Lifecycle operations -/

/-- BEGIN (40_lifecycle_ops.md R64; decisions D5, D6): at commit `count` takes `min(slot_count, 2)`, acknowledged or not,
the result is the acknowledgment, and nothing else changes. -/
def Obligations.BeginClampsCountAndReturnsAck : Prop :=
  ∀ (n : Arg) (s : State) (ack : Bool), s.seq = .idle → s.nextProbe = some ack →
    exec (.begin n) s = .next { s.advanceProbe with
      count := BitVec.ofNat 2 (min n.toNat 2)
      trace := s.trace ++ [.probeRequest s.address, .probeAnswer ack, .done (.bit ack)] }

/-- ISCONN (40_lifecycle_ops.md R65): one probe, its acknowledgment is the result, no state is written. -/
def Obligations.IsconnReturnsAckAndWritesNothing : Prop :=
  ∀ (a : Arg) (s : State) (ack : Bool), s.seq = .idle → s.nextProbe = some ack →
    exec (.isconn a) s = .next { s.advanceProbe with
      trace := s.trace ++ [.probeRequest s.address, .probeAnswer ack, .done (.bit ack)] }

/-- INIT (40_lifecycle_ops.md R66): `lastValue` takes the byte, `lastPos[i]` of every active slot its phase field (slot 0
bits 1:0, slot 1 bits 5:4, 30_encoding.md R45), no value is returned, and nothing else changes. -/
def Obligations.InitTakesTheBaselineSample : Prop :=
  ∀ (a : Arg) (s : State) (b : Byte), s.seq = .idle → s.nextRead = some b →
    exec (.init a) s = .next { s.advanceRead with
      lastValue := b
      lastPos :=
        { slot0 := if 0 < s.count.toNat then b.extractLsb' 0 2 else s.lastPos.slot0
          slot1 := if 1 < s.count.toNat then b.extractLsb' 4 2 else s.lastPos.slot1 }
      trace := s.trace ++ [.readRequest s.address, .readAnswer b, .done .noValue] }

/-! ### Polling operations -/

/-- HASCHG (41_poll_ops.md R69): one read; the result compares all eight bits with `lastValue`; nothing is stored. -/
def Obligations.HaschgComparesAndStoresNothing : Prop :=
  ∀ (a : Arg) (s : State) (b : Byte), s.seq = .idle → s.nextRead = some b →
    exec (.haschg a) s = .next { s.advanceRead with
      trace := s.trace ++ [.readRequest s.address, .readAnswer b, .done (.bit (b != s.lastValue))] }

/-- UPDATE (41_poll_ops.md R70) with the outcome sets of 30_encoding.md R51. An equal byte gives 0 and changes nothing.
Any other byte gives 1 and is latched; every active slot's phase moves to the fresh phase, its accumulator goes up by 1
on a forward code, down by 1 on a reverse code and stays on any other; an inactive slot keeps both. -/
def Obligations.UpdateDecodesTheSample : Prop :=
  ∀ (a : Arg) (s : State) (b : Byte), s.seq = .idle → s.nextRead = some b →
    ∃ t, exec (.update a) s = .next t ∧
      t = { s.advanceRead with
        lastValue := b
        lastPos := t.lastPos
        encoder := t.encoder
        trace := s.trace ++ [.readRequest s.address, .readAnswer b, .done (.bit (b != s.lastValue))] } ∧
      (b = s.lastValue → t.lastPos = s.lastPos ∧ t.encoder = s.encoder) ∧
      (b ≠ s.lastValue → ∀ i : Slot,
        let current := b.extractLsb' (4 * i.index) 2
        let code : TransCode := s.lastPos.get i ++ current
        let forward := code ∈ [0b0001#4, 0b0111#4, 0b1110#4, 0b1000#4]
        let reverse := code ∈ [0b0010#4, 0b0100#4, 0b1101#4, 0b1011#4]
        (i.index < s.count.toNat → t.lastPos.get i = current ∧
          (forward → t.encoder.get i = s.encoder.get i + 1) ∧
          (reverse → t.encoder.get i = s.encoder.get i - 1) ∧
          (¬ forward → ¬ reverse → t.encoder.get i = s.encoder.get i)) ∧
        (s.count.toNat ≤ i.index → t.lastPos.get i = s.lastPos.get i ∧ t.encoder.get i = s.encoder.get i))

/-- UPDSGL (41_poll_ops.md R71) with the outcome sets of 30_encoding.md R52: as UPDATE, with plus 1 on a forward code,
plus 2 on a double step and plus 3 on a reverse code. -/
def Obligations.UpdsglDecodesTheSample : Prop :=
  ∀ (a : Arg) (s : State) (b : Byte), s.seq = .idle → s.nextRead = some b →
    ∃ t, exec (.updsgl a) s = .next t ∧
      t = { s.advanceRead with
        lastValue := b
        lastPos := t.lastPos
        encoder := t.encoder
        trace := s.trace ++ [.readRequest s.address, .readAnswer b, .done (.bit (b != s.lastValue))] } ∧
      (b = s.lastValue → t.lastPos = s.lastPos ∧ t.encoder = s.encoder) ∧
      (b ≠ s.lastValue → ∀ i : Slot,
        let current := b.extractLsb' (4 * i.index) 2
        let code : TransCode := s.lastPos.get i ++ current
        let forward := code ∈ [0b0001#4, 0b0111#4, 0b1110#4, 0b1000#4]
        let double := code ∈ [0b0011#4, 0b0110#4, 0b1001#4, 0b1100#4]
        let reverse := code ∈ [0b0010#4, 0b0100#4, 0b1101#4, 0b1011#4]
        (i.index < s.count.toNat → t.lastPos.get i = current ∧
          (forward → t.encoder.get i = s.encoder.get i + 1) ∧
          (double → t.encoder.get i = s.encoder.get i + 2) ∧
          (reverse → t.encoder.get i = s.encoder.get i + 3) ∧
          (¬ forward → ¬ double → ¬ reverse → t.encoder.get i = s.encoder.get i)) ∧
        (s.count.toNat ≤ i.index → t.lastPos.get i = s.lastPos.get i ∧ t.encoder.get i = s.encoder.get i))

/-- The two slots are separate machines with the same tables (41_poll_ops.md R73, R75): what a poll does to a slot
depends on that slot's own registers and nibble only, whatever the other slot, the buttons and bits 3 and 7 hold. -/
def Obligations.SlotsDecodeIndependently : Prop :=
  ∀ (f : Arg → Instr), f = Instr.update ∨ f = Instr.updsgl →
    ∀ (i : Slot) (s s' t t' : State) (b b' : Byte),
      s.slotActive i → s'.slotActive i → s.nextRead = some b → s'.nextRead = some b' →
      b ≠ s.lastValue → b' ≠ s'.lastValue → b.extractLsb' (4 * i.index) 2 = b'.extractLsb' (4 * i.index) 2 →
      s.lastPos.get i = s'.lastPos.get i → s.encoder.get i = s'.encoder.get i →
      exec (f 0) s = .next t → exec (f 0) s' = .next t' →
      t.lastPos.get i = t'.lastPos.get i ∧ t.encoder.get i = t'.encoder.get i

/-- A change outside the active slots' phase bits (a button, bit 3 or 7, an inactive nibble) gives 1 and is latched, and
counts nothing (41_poll_ops.md R77), in a state whose trackers follow the latch (10_state.md R27). `sent` is what the poll
still has to send: its request when it is accepted, nothing when it has waited for the answer (20_memory.md R38, R39; that
`exec` goes on from WAIT is log entry 4). -/
def Obligations.ChangeOutsidePhasesCountsNothing : Prop :=
  ∀ (f : Arg → Instr), f = Instr.update ∨ f = Instr.updsgl →
    ∀ (a : Arg) (s : State) (b : Byte) (sent : List Event),
      (s.seq = .idle ∧ sent = [.readRequest s.address]) ∨ (s.seq = .wait (encode (f a)) ∧ sent = []) →
      s.nextRead = some b → s.Synced → b ≠ s.lastValue →
      (∀ i : Slot, s.slotActive i → b.extractLsb' (4 * i.index) 2 = s.lastValue.extractLsb' (4 * i.index) 2) →
      exec (f a) s = .next { s.advanceRead with
        seq := .idle
        lastValue := b
        trace := s.trace ++ sent ++ [.readAnswer b, .done (.bit true)] }

/-! ### Arithmetic of the accumulators -/

/-- UPDATE wraps in both directions, read as a signed number (41_poll_ops.md R81; W = 32 and the wrap are decision D8),
whether its answer is there when it is accepted or comes in WAIT (20_memory.md R38; log entry 4). -/
def Obligations.UpdateWrapsInTheSignedReading : Prop :=
  ∀ (a : Arg) (i : Slot) (s t : State) (b : Byte), s.seq = .idle ∨ s.seq = .wait (encode (.update a)) →
    s.nextRead = some b → b ≠ s.lastValue → s.slotActive i → exec (.update a) s = .next t →
    let code : TransCode := s.lastPos.get i ++ b.extractLsb' (4 * i.index) 2
    (code ∈ [0b0001#4, 0b0111#4, 0b1110#4, 0b1000#4] → (t.encoder.get i).toInt =
      if (s.encoder.get i).toInt = 2 ^ 31 - 1 then -2 ^ 31 else (s.encoder.get i).toInt + 1) ∧
    (code ∈ [0b0010#4, 0b0100#4, 0b1101#4, 0b1011#4] → (t.encoder.get i).toInt =
      if (s.encoder.get i).toInt = -2 ^ 31 then 2 ^ 31 - 1 else (s.encoder.get i).toInt - 1)

/-- UPDSGL adds the distance on the gray-code cycle, modulo `2^32` (30_encoding.md R53, 41_poll_ops.md R82; decision D8),
whether its answer is there when it is accepted or comes in WAIT (20_memory.md R38; log entry 4). -/
def Obligations.UpdsglAddsTheCycleDistance : Prop :=
  ∀ (a : Arg) (i : Slot) (s t : State) (b : Byte), s.seq = .idle ∨ s.seq = .wait (encode (.updsgl a)) →
    s.nextRead = some b → b ≠ s.lastValue → s.slotActive i → exec (.updsgl a) s = .next t →
    (t.encoder.get i).toNat = ((s.encoder.get i).toNat +
      (grayPosition (b.extractLsb' (4 * i.index) 2) + 4 - grayPosition (s.lastPos.get i)) % 4) % 2 ^ 32

/-- The modulo-4 law (41_poll_ops.md R84): over any sequence of UPDSGL commands, whatever bytes come and however often
the Byte Source is late, an active slot's accumulator follows its position on the gray-code cycle modulo 4. That a late
answer is a further `exec` is log entry 4, and that one with another operand, or in a block that waits for another command,
goes on with the outstanding transaction is log entry 17, both the model's choices. -/
def Obligations.UpdsglTracksThePositionModuloFour : Prop :=
  ∀ (i : Slot) (args : List Arg) (s t : State), s.slotActive i →
    args.foldlM (fun u a => match exec (.updsgl a) u with | .next v => some v | .fault _ => none | .refused _ => none) s
      = some t →
    ((t.encoder.get i).toNat + grayPosition (s.lastPos.get i)) % 4 =
      ((s.encoder.get i).toNat + grayPosition (t.lastPos.get i)) % 4

/-- UPDATE without a double step follows the position on the cycle too (41_poll_ops.md R84): each such poll, answered or
not (log entries 4 and 17), keeps the difference of accumulator and position modulo 4. -/
def Obligations.UpdateTracksThePositionWithoutDoubleSteps : Prop :=
  ∀ (a : Arg) (i : Slot) (s t : State), s.slotActive i →
    (∀ b, s.nextRead = some b → (s.lastPos.get i ++ b.extractLsb' (4 * i.index) 2 : TransCode) ∉
      [0b0011#4, 0b0110#4, 0b1001#4, 0b1100#4]) →
    exec (.update a) s = .next t →
    ((t.encoder.get i).toNat + grayPosition (s.lastPos.get i)) % 4 =
      ((s.encoder.get i).toNat + grayPosition (t.lastPos.get i)) % 4

/-- A single step and its return (41_poll_ops.md R84; the one-bit glitch of 60_exceptions.md R90): UPDATE counts nothing in
sum, UPDSGL counts 4, and the phase is back. -/
def Obligations.StepAndReturnCancel : Prop :=
  ∀ (i : Slot) (s : State) (b c : Byte) (rest : List (Option Byte)),
    s.seq = .idle → s.slotActive i → s.reads = some b :: some c :: rest → b ≠ s.lastValue → c ≠ b →
    c.extractLsb' (4 * i.index) 2 = s.lastPos.get i →
    ((s.lastPos.get i ++ b.extractLsb' (4 * i.index) 2 : TransCode) ∈
      [0b0001#4, 0b0111#4, 0b1110#4, 0b1000#4, 0b0010#4, 0b0100#4, 0b1101#4, 0b1011#4]) →
    (∃ t u, exec (.update 0) s = .next t ∧ exec (.update 0) t = .next u ∧
      u.encoder.get i = s.encoder.get i ∧ u.lastPos.get i = s.lastPos.get i) ∧
    (∃ t u, exec (.updsgl 0) s = .next t ∧ exec (.updsgl 0) t = .next u ∧
      u.encoder.get i = s.encoder.get i + 4 ∧ u.lastPos.get i = s.lastPos.get i)

/-! ### Button operation -/

/-- KEY 0 answers whether bit 2 of `lastValue` is 0 and KEY 1 whether bit 6 is 0 (42_button_ops.md R85), from the latch and
never from a fresh sample (30_encoding.md R48), whatever `count` is; no transaction, and nothing else changes. R85's third
case, an operand of 2 to 255, is KeyOutOfRangeReturnsFalse. -/
def Obligations.KeyReadsTheLatchedButton : Prop :=
  ∀ s : State, s.seq = .idle →
    exec (.key 0) s = .next { s with trace := s.trace ++ [.done (.bit (decide (s.lastValue &&& 0x04 = 0)))] } ∧
    exec (.key 1) s = .next { s with trace := s.trace ++ [.done (.bit (decide (s.lastValue &&& 0x40 = 0)))] }

/-- KEY with an operand of 2 or more returns 0, reads nothing and changes nothing (42_button_ops.md R87; decision D7). -/
def Obligations.KeyOutOfRangeReturnsFalse : Prop :=
  ∀ (slot : Arg) (s : State), s.seq = .idle → 2 ≤ slot.toNat →
    exec (.key slot) s = .next { s with trace := s.trace ++ [.done (.bit false)] }

/-- KEY answers from the byte of the last INIT, UPDATE or UPDSGL; a HASCHG in between, whatever byte it sees, does not
move the answer (42_button_ops.md R86, conflict C1). -/
def Obligations.KeyAnswersFromTheLastCommittedSample : Prop :=
  ∀ (f : Arg → Instr), f ∈ [Instr.init, Instr.update, Instr.updsgl] →
    ∀ (a h : Arg) (s : State) (b c : Byte) (rest : List (Option Byte)),
      s.seq = .idle → s.reads = some b :: some c :: rest →
      ∃ t u k0 k1, exec (f a) s = .next t ∧ exec (.haschg h) t = .next u ∧
        exec (.key 0) u = .next k0 ∧ exec (.key 1) u = .next k1 ∧
        k0.trace = u.trace ++ [.done (.bit (!b.getLsbD 2))] ∧ k1.trace = u.trace ++ [.done (.bit (!b.getLsbD 6))]

/-- From the reset registers both buttons read as pressed (70_reset_and_hazards.md R113; decision D10). -/
def Obligations.ButtonsReadPressedAfterReset : Prop :=
  ∀ (s : State), s.seq = .idle → s.observed = State.reset.observed →
    exec (.key 0) s = .next { s with trace := s.trace ++ [.done (.bit true)] } ∧
    exec (.key 1) s = .next { s with trace := s.trace ++ [.done (.bit true)] }

/-! ### One step -/

/-- In IDLE a presented word that decodes is taken from the caller and its command runs; nothing else is added (20_memory.md
R38; decision D15). The caller's list is the model's, log entry 1, and that this is one step is its choice, log entry 4. -/
def Obligations.StepRunsTheDecodedCommand : Prop :=
  ∀ (s : State) (w : CmdWord) (rest : List CallerAct) (i : Instr),
    s.seq = .idle → s.caller = .present w :: rest → decode w = .ok i →
    step s = exec i { s with caller := rest }

/-- In WAIT the latched command goes on, and a presented word stays presented: "it is neither dropped nor interleaved"
(20_memory.md R38; decision D15). The model's choices in it: each step in WAIT is one look at the Byte Source (log entry 4),
and a listed look at the observation port is used up in the same step (log entry 1). -/
def Obligations.WaitingBlockRunsTheLatchedCommand : Prop :=
  ∀ (s : State) (w : CmdWord) (i : Instr), s.seq = .wait w → decode w = .ok i →
    (s.caller = [] → step s = exec i s) ∧
    (∀ v rest, s.caller = .present v :: rest → step s = exec i s) ∧
    (∀ rest, s.caller = .observe :: rest → step s = exec i { s with caller := rest })

/-- A reserved word changes no register, makes no transaction and returns 0 (30_encoding.md R60, 60_exceptions.md R92;
decision D3 and log entry 9). -/
def Obligations.ReservedWordIsQuiet : Prop :=
  ∀ (s : State) (w : CmdWord) (rest : List CallerAct),
    s.seq = .idle → s.caller = .present w :: rest → w.toNat < 0x100 →
    step s = .next { s with caller := rest, trace := s.trace ++ [.done (.bit false)] }

/-- Looking at the observation port, or doing nothing, has no effect on an idle block (10_state.md R20, R124; decision D9). -/
def Obligations.ObservingHasNoEffect : Prop :=
  ∀ s : State, s.seq = .idle →
    (s.caller = [] → step s = .next s) ∧
    (∀ rest, s.caller = .observe :: rest → step s = .next { s with caller := rest })

/-- No step faults and no command is refused, in any state (60_exceptions.md R88, R93; 40_lifecycle_ops.md R68). Of a reserved
word, where R93 lets a model refuse, that is the model's choice of log entry 9, and that an idle block with nothing
presented takes a step is its choice of log entry 14. -/
def Obligations.EveryStepHasANextState : Prop :=
  ∀ s : State, ∃ t, step s = .next t

/-! ### The whole machine -/

/-- `encoder[i]` is written only by UPDATE and UPDSGL, and only for an active slot whose transition code is in a counting
class of the mode in use; reset is the only other writer (10_state.md R17). -/
def Obligations.AccumulatorChangesOnlyByCounting : Prop :=
  ∀ (s t : State) (i : Slot), step s = .next t → t.encoder.get i ≠ s.encoder.get i →
    (s.resetNext = true ∧ t.encoder.get i = 0) ∨
    (∃ (a : Arg) (b : Byte), s.nextRead = some b ∧ b ≠ s.lastValue ∧ s.slotActive i ∧
      ((s.commandNow = some (.update a) ∧ (s.lastPos.get i ++ b.extractLsb' (4 * i.index) 2 : TransCode) ∈
          [0b0001#4, 0b0111#4, 0b1110#4, 0b1000#4, 0b0010#4, 0b0100#4, 0b1101#4, 0b1011#4]) ∨
       (s.commandNow = some (.updsgl a) ∧ (s.lastPos.get i ++ b.extractLsb' (4 * i.index) 2 : TransCode) ∈
          [0b0001#4, 0b0111#4, 0b1110#4, 0b1000#4, 0b0011#4, 0b0110#4, 0b1001#4, 0b1100#4,
           0b0010#4, 0b0100#4, 0b1101#4, 0b1011#4])))

/-- The writers of the other registers (the table of 10_state.md R10): `count` by BEGIN, `lastValue` by INIT, UPDATE and
UPDSGL, `lastPos[i]` by the same for an active slot; and reset. -/
def Obligations.OnlyTheNamedCommandsWriteTheRegisters : Prop :=
  ∀ s t : State, step s = .next t → s.resetNext = false →
    (t.count ≠ s.count → ∃ n, s.commandNow = some (.begin n) ∧ s.nextProbe ≠ none ∧ t.count.toNat = min n.toNat 2) ∧
    (t.lastValue ≠ s.lastValue →
      (∃ a, s.commandNow = some (.init a) ∨ s.commandNow = some (.update a) ∨ s.commandNow = some (.updsgl a)) ∧
      s.nextRead = some t.lastValue) ∧
    (∀ i : Slot, t.lastPos.get i ≠ s.lastPos.get i →
      (∃ a, s.commandNow = some (.init a) ∨ s.commandNow = some (.update a) ∨ s.commandNow = some (.updsgl a)) ∧
      s.slotActive i ∧ ∃ b, s.nextRead = some b ∧ t.lastPos.get i = b.extractLsb' (4 * i.index) 2)

/-- Each command makes its fixed number of Byte Source transactions, whatever the state (20_memory.md R35), at the bus
address of the block (R28). -/
def Obligations.CommandMakesItsFixedTransactions : Prop :=
  ∀ (i : Instr) (s t : State), s.seq = .idle → exec i s = .next t →
    ∃ events, t.trace = s.trace ++ events ∧
      requestsOf events = (match transactionOf i with
        | .none => []
        | .read => [.readRequest s.address]
        | .probe => [.probeRequest s.address])

/-- While a command waits the observation port shows the state before it, and no result has been delivered (10_state.md R20,
20_memory.md R38; decision D15). -/
def Obligations.WaitingCommandHasWrittenNothing : Prop :=
  ∀ (s t : State) (w : CmdWord), step s = .next t → t.seq = .wait w →
    t.observed = s.observed ∧ t.address = s.address ∧ resultsOf t.trace = resultsOf s.trace

/-- A stalled Byte Source (20_memory.md R40): a command with a transaction is accepted and the answer does not come, for any
number of steps. The block stays in WAIT, commits nothing, returns no result and accepts no further command: every word
presented stays presented. Reset leaves that state (70_reset_and_hazards.md R105, decision D26) with the reset registers
(10_state.md R24, decision D10). That a stall of `n + 1` looks is `n + 1` steps is the model's choice, log entry 4. -/
def Obligations.StalledBusBlocksUntilReset : Prop :=
  ∀ (n : Nat) (s : State) (w : CmdWord) (i : Instr) (rest : List CallerAct)
    (reads : List (Option Byte)) (probes : List (Option Bool)),
    s.seq = .idle → s.caller = .present w :: rest → decode w = .ok i → transactionOf i ≠ .none →
    rest.all (fun c => !c.isReset) = true →
    s.reads = List.replicate (n + 1) none ++ reads → s.probes = List.replicate (n + 1) none ++ probes →
    ∃ t, runSteps (n + 1) s = .next t ∧ t.seq = .wait w ∧ t.observed = s.observed ∧
      resultsOf t.trace = resultsOf s.trace ∧
      t.caller.filter CallerAct.isPresent = rest.filter CallerAct.isPresent ∧
      ∀ (a : BusAddr) (later : List CallerAct), ∃ u,
        step { t with caller := .reset a :: later } = .next u ∧ u.seq = .idle ∧ u.observed = State.reset.observed

/-- Progress (70_reset_and_hazards.md R123): if the Byte Source answers after a finite delay, the command completes and the block
is back in IDLE. A late command does what the undelayed one (`u`) does: same registers, same result, same events. What the
caller does meanwhile, short of reset, makes no difference: looks at the port are used up, a presented word and all behind it
stay. That an answer at look `n + 1` takes `n + 1` steps is the model's choice, log entry 4. -/
def Obligations.CommandCompletesAfterAnyFiniteDelay : Prop :=
  ∀ (n : Nat) (s : State) (w : CmdWord) (i : Instr) (b : Byte) (ack : Bool) (rest : List CallerAct)
    (reads : List (Option Byte)) (probes : List (Option Bool)),
    s.seq = .idle → s.caller = .present w :: rest → decode w = .ok i → transactionOf i ≠ .none →
    (rest.take n).all (fun c => !c.isReset) = true →
    s.reads = List.replicate n none ++ some b :: reads → s.probes = List.replicate n none ++ some ack :: probes →
    ∃ (t u : State) (r : Result) (looks : Nat),
      runSteps (n + 1) s = .next t ∧
      exec i { s with caller := rest, reads := some b :: reads, probes := some ack :: probes } = .next u ∧
      t = { u with caller := t.caller, reads := t.reads, probes := t.probes } ∧ t.observed = u.observed ∧
      t.seq = .idle ∧ resultsOf t.trace = resultsOf s.trace ++ [r] ∧ resultsOf u.trace = resultsOf s.trace ++ [r] ∧
      looks ≤ n ∧ rest = List.replicate looks .observe ++ t.caller

/-- No command's effect depends on earlier results or on the bus address: the QDC keeps no result and no "connected" bit
(10_state.md R19, 60_exceptions.md R89) and never interprets `ADDRESS` (00_scope.md R7). Two runs that differ in those two only. -/
def Obligations.HistoryAndAddressHaveNoInfluence : Prop :=
  ∀ (i : Instr) (s t : State) (past : List Event) (a : BusAddr), exec i s = .next t →
    ∃ t', exec i { s with trace := past, address := a } = .next t' ∧
      t' = { t with trace := t'.trace, address := a } ∧
      ∃ events events', t.trace = s.trace ++ events ∧ t'.trace = past ++ events' ∧
        resultsOf events = resultsOf events'

/-! ### Invariants -/

/-- The two invariants hold at reset, and so does the third (10_state.md R24, R26, R27). -/
def Obligations.InvariantsHoldAtReset : Prop :=
  State.reset.CountLegal ∧ State.reset.Orderly ∧ State.reset.Synced

/-- "Legal values are 0, 1 and 2; the value 3 is never held" (10_state.md R11, R26): every step keeps it. -/
def Obligations.EveryStepKeepsCountLegal : Prop :=
  ∀ s t : State, s.CountLegal → step s = .next t → t.CountLegal

/-- The order of events (20_memory.md R39): every step keeps the record in the order request, answer, commit, with at most one
transaction out, and out exactly while the block waits for it. -/
def Obligations.EveryStepKeepsThePortsOrderly : Prop :=
  ∀ s t : State, s.Orderly → step s = .next t → t.Orderly

/-- INIT establishes the phase invariant from any state (40_lifecycle_ops.md R66, 10_state.md R27). -/
def Obligations.InitSyncsTheTrackers : Prop :=
  ∀ (a : Arg) (s t : State) (b : Byte), s.nextRead = some b → exec (.init a) s = .next t → t.Synced

/-- The phase invariant (10_state.md R27): every step that does not raise `count` keeps every active slot's `lastPos[i]` equal
to the phase bits of `lastValue`. -/
def Obligations.EveryStepKeepsTheTrackersSynced : Prop :=
  ∀ s t : State, s.Synced → step s = .next t → t.count.toNat ≤ s.count.toNat → t.Synced

/-! ### The late answer: a command commits from WAIT

"waits for the answer; then, in one indivisible commit, computes and writes all its state changes and delivers its result;
then returns to `IDLE`" (20_memory.md R38; decision D15), and no second request goes out ("no retry logic", R39). -/

/-- BEGIN and ISCONN (40_lifecycle_ops.md R64, R65; decisions D5, D6, D15): the register effect and the result are those of a
probe answered at once; only the answer and the result are added to the record. That `exec` goes on from WAIT is log entry 4. -/
def Obligations.LateProbeAnswerCommits : Prop :=
  ∀ (a : Arg) (s : State) (ack : Bool), s.nextProbe = some ack →
    (s.seq = .wait (encode (.begin a)) → exec (.begin a) s = .next { s.advanceProbe with
      seq := .idle
      count := BitVec.ofNat 2 (min a.toNat 2)
      trace := s.trace ++ [.probeAnswer ack, .done (.bit ack)] }) ∧
    (s.seq = .wait (encode (.isconn a)) → exec (.isconn a) s = .next { s.advanceProbe with
      seq := .idle
      trace := s.trace ++ [.probeAnswer ack, .done (.bit ack)] })

/-- INIT and HASCHG (40_lifecycle_ops.md R66, 41_poll_ops.md R69; decision D15): INIT writes `lastValue` and the phase of every
active slot from the late byte, HASCHG compares the late byte and writes nothing. That `exec` goes on from WAIT is log entry 4. -/
def Obligations.LateSampleCommitsInitAndHaschg : Prop :=
  ∀ (a : Arg) (s : State) (b : Byte), s.nextRead = some b →
    (s.seq = .wait (encode (.init a)) → exec (.init a) s = .next { s.advanceRead with
      seq := .idle
      lastValue := b
      lastPos :=
        { slot0 := if 0 < s.count.toNat then b.extractLsb' 0 2 else s.lastPos.slot0
          slot1 := if 1 < s.count.toNat then b.extractLsb' 4 2 else s.lastPos.slot1 }
      trace := s.trace ++ [.readAnswer b, .done .noValue] }) ∧
    (s.seq = .wait (encode (.haschg a)) → exec (.haschg a) s = .next { s.advanceRead with
      seq := .idle
      trace := s.trace ++ [.readAnswer b, .done (.bit (b != s.lastValue))] })

/-- UPDATE and UPDSGL (41_poll_ops.md R70, R71; 30_encoding.md R51, R52; decision D15), which differ in what a double step and a
reverse step add: the late byte is compared with and decoded against the registers of the waiting block. That `exec` goes on
from WAIT is log entry 4. -/
def Obligations.LateSampleCommitsThePolls : Prop :=
  ∀ (f : Arg → Instr) (double reverse : Acc),
    (f = Instr.update ∧ double = 0 ∧ reverse = -1) ∨ (f = Instr.updsgl ∧ double = 2 ∧ reverse = 3) →
    ∀ (a : Arg) (s : State) (b : Byte), s.seq = .wait (encode (f a)) → s.nextRead = some b →
      ∃ t, exec (f a) s = .next t ∧
        t = { s.advanceRead with
          seq := .idle
          lastValue := b
          lastPos := t.lastPos
          encoder := t.encoder
          trace := s.trace ++ [.readAnswer b, .done (.bit (b != s.lastValue))] } ∧
        (b = s.lastValue → t.lastPos = s.lastPos ∧ t.encoder = s.encoder) ∧
        (b ≠ s.lastValue → ∀ i : Slot,
          let current := b.extractLsb' (4 * i.index) 2
          let code : TransCode := s.lastPos.get i ++ current
          (i.index < s.count.toNat → t.lastPos.get i = current ∧
            (code ∈ [0b0001#4, 0b0111#4, 0b1110#4, 0b1000#4] → t.encoder.get i = s.encoder.get i + 1) ∧
            (code ∈ [0b0011#4, 0b0110#4, 0b1001#4, 0b1100#4] → t.encoder.get i = s.encoder.get i + double) ∧
            (code ∈ [0b0010#4, 0b0100#4, 0b1101#4, 0b1011#4] → t.encoder.get i = s.encoder.get i + reverse) ∧
            (code ∈ [0b0000#4, 0b0101#4, 0b1010#4, 0b1111#4] → t.encoder.get i = s.encoder.get i)) ∧
          (s.count.toNat ≤ i.index → t.lastPos.get i = s.lastPos.get i ∧ t.encoder.get i = s.encoder.get i))
end

