-- ==== Sys2Proof/Laws/Decode.lean ====
section
/-! SUPPORT. The fields of a command word and of its encoding (30_encoding.md R54). -/

namespace Sys2Proof

/-- The opcode field of `{op, arg}` is `op`. -/
theorem opField_append (op : BitVec 3) (arg : Arg) : opField (op ++ arg) = op := by
  unfold opField
  apply BitVec.eq_of_getLsbD_eq
  intro k hk
  have h1 : ¬ (8 + k < 8) := by omega
  simp only [BitVec.getLsbD_extractLsb', BitVec.getLsbD_append, hk, decide_true, Nat.add_sub_cancel_left, Bool.true_and,
    h1, if_false]

/-- The operand field of `{op, arg}` is `arg`. -/
theorem argField_append (op : BitVec 3) (arg : Arg) : argField (op ++ arg) = arg := by
  unfold argField
  apply BitVec.eq_of_getLsbD_eq
  intro k hk
  simp only [BitVec.getLsbD_extractLsb', BitVec.getLsbD_append, hk, decide_true, Nat.zero_add, Bool.true_and, if_true]

/-- A command word is its two fields, the opcode above. -/
theorem opField_append_argField (w : CmdWord) : opField w ++ argField w = w := by
  unfold opField argField
  apply BitVec.eq_of_getLsbD_eq
  intro k hk
  rw [BitVec.getLsbD_append]
  split
  · next h => simp only [BitVec.getLsbD_extractLsb', h, decide_true, Bool.true_and, Nat.zero_add]
  · next h =>
    have h1 : k - 8 < 3 := by omega
    have h2 : 8 + (k - 8) = k := by omega
    simp only [BitVec.getLsbD_extractLsb', h1, h2, decide_true, Bool.true_and]

/-- The opcode field of a command's word is the command's opcode. -/
theorem opField_encode (i : Instr) : opField (encode i) = opcodeOf i :=
  opField_append (opcodeOf i) (argOf i)

/-- The operand field of a command's word is the command's operand. -/
theorem argField_encode (i : Instr) : argField (encode i) = argOf i :=
  argField_append (opcodeOf i) (argOf i)

end Sys2Proof
end

