-- ==== Sys2Proof/Laws/State.lean ====
section
/-! SUPPORT. One lemma per field per update of `State`, so that no later proof unfolds a record update. -/

namespace Sys2Proof.Machine

@[simp] theorem PerSlot.get_slot0 {α : Type} (p : PerSlot α) : p.get .slot0 = p.slot0 := rfl
@[simp] theorem PerSlot.get_slot1 {α : Type} (p : PerSlot α) : p.get .slot1 = p.slot1 := rfl

@[simp] theorem PerSlot.get_set {α : Type} (p : PerSlot α) (i j : Slot) (v : α) :
    (p.set i v).get j = if j = i then v else p.get j := by
  cases i <;> cases j <;> rfl

/-- Two pairs with the same entries are the same pair. -/
theorem PerSlot.ext_get {α : Type} {p q : PerSlot α} (h : ∀ i, p.get i = q.get i) : p = q := by
  obtain ⟨a, b⟩ := p
  obtain ⟨c, d⟩ := q
  exact congr (congrArg PerSlot.mk (h .slot0)) (h .slot1)

/-! `setCount` -/

@[simp] theorem State.setCount_count (s : State) (v : BitVec 2) : (s.setCount v).count = v := rfl
@[simp] theorem State.setCount_lastValue (s : State) (v : BitVec 2) : (s.setCount v).lastValue = s.lastValue := rfl
@[simp] theorem State.setCount_lastPos (s : State) (v : BitVec 2) : (s.setCount v).lastPos = s.lastPos := rfl
@[simp] theorem State.setCount_encoder (s : State) (v : BitVec 2) : (s.setCount v).encoder = s.encoder := rfl
@[simp] theorem State.setCount_seq (s : State) (v : BitVec 2) : (s.setCount v).seq = s.seq := rfl
@[simp] theorem State.setCount_address (s : State) (v : BitVec 2) : (s.setCount v).address = s.address := rfl
@[simp] theorem State.setCount_caller (s : State) (v : BitVec 2) : (s.setCount v).caller = s.caller := rfl
@[simp] theorem State.setCount_reads (s : State) (v : BitVec 2) : (s.setCount v).reads = s.reads := rfl
@[simp] theorem State.setCount_probes (s : State) (v : BitVec 2) : (s.setCount v).probes = s.probes := rfl
@[simp] theorem State.setCount_draws (s : State) (v : BitVec 2) : (s.setCount v).draws = s.draws := rfl
@[simp] theorem State.setCount_trace (s : State) (v : BitVec 2) : (s.setCount v).trace = s.trace := rfl

/-! `setLastValue` -/

@[simp] theorem State.setLastValue_count (s : State) (v : Byte) : (s.setLastValue v).count = s.count := rfl
@[simp] theorem State.setLastValue_lastValue (s : State) (v : Byte) : (s.setLastValue v).lastValue = v := rfl
@[simp] theorem State.setLastValue_lastPos (s : State) (v : Byte) : (s.setLastValue v).lastPos = s.lastPos := rfl
@[simp] theorem State.setLastValue_encoder (s : State) (v : Byte) : (s.setLastValue v).encoder = s.encoder := rfl
@[simp] theorem State.setLastValue_seq (s : State) (v : Byte) : (s.setLastValue v).seq = s.seq := rfl
@[simp] theorem State.setLastValue_address (s : State) (v : Byte) : (s.setLastValue v).address = s.address := rfl
@[simp] theorem State.setLastValue_caller (s : State) (v : Byte) : (s.setLastValue v).caller = s.caller := rfl
@[simp] theorem State.setLastValue_reads (s : State) (v : Byte) : (s.setLastValue v).reads = s.reads := rfl
@[simp] theorem State.setLastValue_probes (s : State) (v : Byte) : (s.setLastValue v).probes = s.probes := rfl
@[simp] theorem State.setLastValue_draws (s : State) (v : Byte) : (s.setLastValue v).draws = s.draws := rfl
@[simp] theorem State.setLastValue_trace (s : State) (v : Byte) : (s.setLastValue v).trace = s.trace := rfl

/-! `setLastPos` -/

@[simp] theorem State.setLastPos_count (s : State) (i : Slot) (v : Phase) : (s.setLastPos i v).count = s.count := rfl
@[simp] theorem State.setLastPos_lastValue (s : State) (i : Slot) (v : Phase) : (s.setLastPos i v).lastValue = s.lastValue := rfl
@[simp] theorem State.setLastPos_lastPos (s : State) (i : Slot) (v : Phase) : (s.setLastPos i v).lastPos = s.lastPos.set i v := rfl
@[simp] theorem State.setLastPos_encoder (s : State) (i : Slot) (v : Phase) : (s.setLastPos i v).encoder = s.encoder := rfl
@[simp] theorem State.setLastPos_seq (s : State) (i : Slot) (v : Phase) : (s.setLastPos i v).seq = s.seq := rfl
@[simp] theorem State.setLastPos_address (s : State) (i : Slot) (v : Phase) : (s.setLastPos i v).address = s.address := rfl
@[simp] theorem State.setLastPos_caller (s : State) (i : Slot) (v : Phase) : (s.setLastPos i v).caller = s.caller := rfl
@[simp] theorem State.setLastPos_reads (s : State) (i : Slot) (v : Phase) : (s.setLastPos i v).reads = s.reads := rfl
@[simp] theorem State.setLastPos_probes (s : State) (i : Slot) (v : Phase) : (s.setLastPos i v).probes = s.probes := rfl
@[simp] theorem State.setLastPos_draws (s : State) (i : Slot) (v : Phase) : (s.setLastPos i v).draws = s.draws := rfl
@[simp] theorem State.setLastPos_trace (s : State) (i : Slot) (v : Phase) : (s.setLastPos i v).trace = s.trace := rfl

/-! `setEncoder` -/

@[simp] theorem State.setEncoder_count (s : State) (i : Slot) (v : Acc) : (s.setEncoder i v).count = s.count := rfl
@[simp] theorem State.setEncoder_lastValue (s : State) (i : Slot) (v : Acc) : (s.setEncoder i v).lastValue = s.lastValue := rfl
@[simp] theorem State.setEncoder_lastPos (s : State) (i : Slot) (v : Acc) : (s.setEncoder i v).lastPos = s.lastPos := rfl
@[simp] theorem State.setEncoder_encoder (s : State) (i : Slot) (v : Acc) : (s.setEncoder i v).encoder = s.encoder.set i v := rfl
@[simp] theorem State.setEncoder_seq (s : State) (i : Slot) (v : Acc) : (s.setEncoder i v).seq = s.seq := rfl
@[simp] theorem State.setEncoder_address (s : State) (i : Slot) (v : Acc) : (s.setEncoder i v).address = s.address := rfl
@[simp] theorem State.setEncoder_caller (s : State) (i : Slot) (v : Acc) : (s.setEncoder i v).caller = s.caller := rfl
@[simp] theorem State.setEncoder_reads (s : State) (i : Slot) (v : Acc) : (s.setEncoder i v).reads = s.reads := rfl
@[simp] theorem State.setEncoder_probes (s : State) (i : Slot) (v : Acc) : (s.setEncoder i v).probes = s.probes := rfl
@[simp] theorem State.setEncoder_draws (s : State) (i : Slot) (v : Acc) : (s.setEncoder i v).draws = s.draws := rfl
@[simp] theorem State.setEncoder_trace (s : State) (i : Slot) (v : Acc) : (s.setEncoder i v).trace = s.trace := rfl

/-! `record` -/

@[simp] theorem State.record_count (s : State) (e : Event) : (s.record e).count = s.count := rfl
@[simp] theorem State.record_lastValue (s : State) (e : Event) : (s.record e).lastValue = s.lastValue := rfl
@[simp] theorem State.record_lastPos (s : State) (e : Event) : (s.record e).lastPos = s.lastPos := rfl
@[simp] theorem State.record_encoder (s : State) (e : Event) : (s.record e).encoder = s.encoder := rfl
@[simp] theorem State.record_seq (s : State) (e : Event) : (s.record e).seq = s.seq := rfl
@[simp] theorem State.record_address (s : State) (e : Event) : (s.record e).address = s.address := rfl
@[simp] theorem State.record_caller (s : State) (e : Event) : (s.record e).caller = s.caller := rfl
@[simp] theorem State.record_reads (s : State) (e : Event) : (s.record e).reads = s.reads := rfl
@[simp] theorem State.record_probes (s : State) (e : Event) : (s.record e).probes = s.probes := rfl
@[simp] theorem State.record_draws (s : State) (e : Event) : (s.record e).draws = s.draws := rfl
@[simp] theorem State.record_trace (s : State) (e : Event) : (s.record e).trace = s.trace ++ [e] := rfl

/-! `commit` -/

@[simp] theorem State.commit_count (s : State) (r : Result) : (s.commit r).count = s.count := rfl
@[simp] theorem State.commit_lastValue (s : State) (r : Result) : (s.commit r).lastValue = s.lastValue := rfl
@[simp] theorem State.commit_lastPos (s : State) (r : Result) : (s.commit r).lastPos = s.lastPos := rfl
@[simp] theorem State.commit_encoder (s : State) (r : Result) : (s.commit r).encoder = s.encoder := rfl
@[simp] theorem State.commit_seq (s : State) (r : Result) : (s.commit r).seq = .idle := rfl
@[simp] theorem State.commit_address (s : State) (r : Result) : (s.commit r).address = s.address := rfl
@[simp] theorem State.commit_caller (s : State) (r : Result) : (s.commit r).caller = s.caller := rfl
@[simp] theorem State.commit_reads (s : State) (r : Result) : (s.commit r).reads = s.reads := rfl
@[simp] theorem State.commit_probes (s : State) (r : Result) : (s.commit r).probes = s.probes := rfl
@[simp] theorem State.commit_draws (s : State) (r : Result) : (s.commit r).draws = s.draws := rfl
@[simp] theorem State.commit_trace (s : State) (r : Result) : (s.commit r).trace = s.trace ++ [.done r] := rfl

/-! `applyReset` -/

@[simp] theorem State.applyReset_count (s : State) (a : BusAddr) (rest : List CallerAct) : (s.applyReset a rest).count = 0 := rfl
@[simp] theorem State.applyReset_lastValue (s : State) (a : BusAddr) (rest : List CallerAct) : (s.applyReset a rest).lastValue = 0x00 := rfl
@[simp] theorem State.applyReset_lastPos (s : State) (a : BusAddr) (rest : List CallerAct) : (s.applyReset a rest).lastPos = ⟨0, 0⟩ := rfl
@[simp] theorem State.applyReset_encoder (s : State) (a : BusAddr) (rest : List CallerAct) : (s.applyReset a rest).encoder = ⟨0, 0⟩ := rfl
@[simp] theorem State.applyReset_seq (s : State) (a : BusAddr) (rest : List CallerAct) : (s.applyReset a rest).seq = .idle := rfl
@[simp] theorem State.applyReset_address (s : State) (a : BusAddr) (rest : List CallerAct) : (s.applyReset a rest).address = a := rfl
@[simp] theorem State.applyReset_caller (s : State) (a : BusAddr) (rest : List CallerAct) : (s.applyReset a rest).caller = rest := rfl
@[simp] theorem State.applyReset_reads (s : State) (a : BusAddr) (rest : List CallerAct) : (s.applyReset a rest).reads = s.reads := rfl
@[simp] theorem State.applyReset_probes (s : State) (a : BusAddr) (rest : List CallerAct) : (s.applyReset a rest).probes = s.probes := rfl
@[simp] theorem State.applyReset_draws (s : State) (a : BusAddr) (rest : List CallerAct) : (s.applyReset a rest).draws = s.draws := rfl
@[simp] theorem State.applyReset_trace (s : State) (a : BusAddr) (rest : List CallerAct) : (s.applyReset a rest).trace = s.trace ++ [.reset a] := rfl

/-! `advanceRead` -/

@[simp] theorem State.advanceRead_count (s : State) : s.advanceRead.count = s.count := by
  unfold State.advanceRead; split <;> rfl
@[simp] theorem State.advanceRead_lastValue (s : State) : s.advanceRead.lastValue = s.lastValue := by
  unfold State.advanceRead; split <;> rfl
@[simp] theorem State.advanceRead_lastPos (s : State) : s.advanceRead.lastPos = s.lastPos := by
  unfold State.advanceRead; split <;> rfl
@[simp] theorem State.advanceRead_encoder (s : State) : s.advanceRead.encoder = s.encoder := by
  unfold State.advanceRead; split <;> rfl
@[simp] theorem State.advanceRead_seq (s : State) : s.advanceRead.seq = s.seq := by
  unfold State.advanceRead; split <;> rfl
@[simp] theorem State.advanceRead_address (s : State) : s.advanceRead.address = s.address := by
  unfold State.advanceRead; split <;> rfl
@[simp] theorem State.advanceRead_caller (s : State) : s.advanceRead.caller = s.caller := by
  unfold State.advanceRead; split <;> rfl
@[simp] theorem State.advanceRead_probes (s : State) : s.advanceRead.probes = s.probes := by
  unfold State.advanceRead; split <;> rfl
@[simp] theorem State.advanceRead_trace (s : State) : s.advanceRead.trace = s.trace := by
  unfold State.advanceRead; split <;> rfl

/-! `advanceProbe` -/

@[simp] theorem State.advanceProbe_count (s : State) : s.advanceProbe.count = s.count := by
  unfold State.advanceProbe; split <;> rfl
@[simp] theorem State.advanceProbe_lastValue (s : State) : s.advanceProbe.lastValue = s.lastValue := by
  unfold State.advanceProbe; split <;> rfl
@[simp] theorem State.advanceProbe_lastPos (s : State) : s.advanceProbe.lastPos = s.lastPos := by
  unfold State.advanceProbe; split <;> rfl
@[simp] theorem State.advanceProbe_encoder (s : State) : s.advanceProbe.encoder = s.encoder := by
  unfold State.advanceProbe; split <;> rfl
@[simp] theorem State.advanceProbe_seq (s : State) : s.advanceProbe.seq = s.seq := by
  unfold State.advanceProbe; split <;> rfl
@[simp] theorem State.advanceProbe_address (s : State) : s.advanceProbe.address = s.address := by
  unfold State.advanceProbe; split <;> rfl
@[simp] theorem State.advanceProbe_caller (s : State) : s.advanceProbe.caller = s.caller := by
  unfold State.advanceProbe; split <;> rfl
@[simp] theorem State.advanceProbe_reads (s : State) : s.advanceProbe.reads = s.reads := by
  unfold State.advanceProbe; split <;> rfl
@[simp] theorem State.advanceProbe_trace (s : State) : s.advanceProbe.trace = s.trace := by
  unfold State.advanceProbe; split <;> rfl

/-! `issue` -/

@[simp] theorem State.issue_count (s : State) (cmd : CmdWord) (e : Event) : (s.issue cmd e).count = s.count := by
  unfold State.issue; split <;> rfl
@[simp] theorem State.issue_lastValue (s : State) (cmd : CmdWord) (e : Event) : (s.issue cmd e).lastValue = s.lastValue := by
  unfold State.issue; split <;> rfl
@[simp] theorem State.issue_lastPos (s : State) (cmd : CmdWord) (e : Event) : (s.issue cmd e).lastPos = s.lastPos := by
  unfold State.issue; split <;> rfl
@[simp] theorem State.issue_encoder (s : State) (cmd : CmdWord) (e : Event) : (s.issue cmd e).encoder = s.encoder := by
  unfold State.issue; split <;> rfl
@[simp] theorem State.issue_address (s : State) (cmd : CmdWord) (e : Event) : (s.issue cmd e).address = s.address := by
  unfold State.issue; split <;> rfl
@[simp] theorem State.issue_caller (s : State) (cmd : CmdWord) (e : Event) : (s.issue cmd e).caller = s.caller := by
  unfold State.issue; split <;> rfl
@[simp] theorem State.issue_reads (s : State) (cmd : CmdWord) (e : Event) : (s.issue cmd e).reads = s.reads := by
  unfold State.issue; split <;> rfl
@[simp] theorem State.issue_probes (s : State) (cmd : CmdWord) (e : Event) : (s.issue cmd e).probes = s.probes := by
  unfold State.issue; split <;> rfl
@[simp] theorem State.issue_draws (s : State) (cmd : CmdWord) (e : Event) : (s.issue cmd e).draws = s.draws := by
  unfold State.issue; split <;> rfl

end Sys2Proof.Machine
end

