-- ==== Sys2Proof/Laws/Ops.lean ====
section
/-! SUPPORT. What each shared operation can do, said once. -/

namespace Sys2Proof.Machine

/-! ### Operands -/

/-- `count` names the slots below it; the value 3, never held, names both. -/
theorem mem_activeSlots (c : BitVec 2) (i : Slot) : i ∈ activeSlots c ↔ i.index < c.toNat := by
  have h : c = 0 ∨ c = 1 ∨ c = 2 ∨ c = 3 := by revert c; decide
  rcases h with rfl | rfl | rfl | rfl <;> cases i <;> decide

/-- The phase of a slot is the two bits of its nibble. -/
theorem phaseOf_eq_extract (i : Slot) (value : Byte) : phaseOf i value = value.extractLsb' (4 * i.index) 2 := by
  revert value
  cases i <;> decide

/-- A transition code is the concatenation of the two phases. -/
theorem transCode_eq_append (prev cur : Phase) : transCode prev cur = (prev ++ cur : TransCode) := by
  revert prev cur
  decide

/-! ### The Byte Source port -/

/-- From IDLE, `issue` latches the word and sends the one request. -/
theorem State.issue_of_idle (s : State) (cmd : CmdWord) (e : Event) (h : s.seq = .idle) :
    s.issue cmd e = { s with seq := .wait cmd, trace := s.trace ++ [e] } := by
  unfold State.issue
  rw [h]

/-- In WAIT, `issue` does nothing. -/
theorem State.issue_of_wait (s : State) (cmd latched : CmdWord) (e : Event) (h : s.seq = .wait latched) :
    s.issue cmd e = s := by
  unfold State.issue
  rw [h]

/-- What the Byte Source does about a read does not depend on the request having gone out. -/
@[simp] theorem State.issue_nextRead (s : State) (cmd : CmdWord) (e : Event) :
    (s.issue cmd e).nextRead = s.nextRead := by
  simp [State.nextRead]

/-- The same for a probe. -/
@[simp] theorem State.issue_nextProbe (s : State) (cmd : CmdWord) (e : Event) :
    (s.issue cmd e).nextProbe = s.nextProbe := by
  simp [State.nextProbe]

/-- A read transaction either finds the byte and goes on, or waits. -/
theorem State.readThen_cases (s : State) (cmd : CmdWord) (k : Byte → State → State) :
    (∃ b, s.nextRead = some b ∧
      s.readThen cmd k = k b ((s.issue cmd (.readRequest s.address)).advanceRead.record (.readAnswer b))) ∨
    (s.nextRead = none ∧ s.readThen cmd k = (s.issue cmd (.readRequest s.address)).advanceRead) := by
  unfold State.readThen
  cases h : s.nextRead with
  | none => simp [h]
  | some b => simp [h]

/-- A probe transaction either finds the answer and goes on, or waits. -/
theorem State.probeThen_cases (s : State) (cmd : CmdWord) (k : Bool → State → State) :
    (∃ a, s.nextProbe = some a ∧
      s.probeThen cmd k = k a ((s.issue cmd (.probeRequest s.address)).advanceProbe.record (.probeAnswer a))) ∨
    (s.nextProbe = none ∧ s.probeThen cmd k = (s.issue cmd (.probeRequest s.address)).advanceProbe) := by
  unfold State.probeThen
  cases h : s.nextProbe with
  | none => simp [h]
  | some a => simp [h]

/-- A listed read answer is taken from the list, and nothing else moves. -/
theorem State.advanceRead_of_cons (s : State) (a : Option Byte) (rest : List (Option Byte)) (h : s.reads = a :: rest) :
    s.advanceRead = { s with reads := rest } ∧ s.nextRead = a := by
  unfold State.advanceRead State.nextRead
  rw [h]
  exact ⟨rfl, rfl⟩

/-- A listed probe answer is taken from the list, and nothing else moves. -/
theorem State.advanceProbe_of_cons (s : State) (a : Option Bool) (rest : List (Option Bool)) (h : s.probes = a :: rest) :
    s.advanceProbe = { s with probes := rest } ∧ s.nextProbe = a := by
  unfold State.advanceProbe State.nextProbe
  rw [h]
  exact ⟨rfl, rfl⟩

/-- From IDLE with the byte there, a read transaction puts request and answer on record and goes on in WAIT. -/
theorem State.readThen_of_idle (s : State) (cmd : CmdWord) (k : Byte → State → State) (b : Byte)
    (hs : s.seq = .idle) (hb : s.nextRead = some b) :
    s.readThen cmd k = k b { s.advanceRead with
      seq := .wait cmd, trace := s.trace ++ [.readRequest s.address, .readAnswer b] } := by
  obtain ⟨b', hb', e⟩ | ⟨hn, _⟩ := s.readThen_cases cmd k
  · rw [hb', Option.some.injEq] at hb
    rw [e, hb, State.issue_of_idle _ _ _ hs]
    congr 1
    unfold State.advanceRead
    cases s.reads <;> simp [State.record]
  · rw [hn] at hb
    cases hb

/-- From IDLE with the answer there, a probe transaction puts request and answer on record and goes on in WAIT. -/
theorem State.probeThen_of_idle (s : State) (cmd : CmdWord) (k : Bool → State → State) (ack : Bool)
    (hs : s.seq = .idle) (ha : s.nextProbe = some ack) :
    s.probeThen cmd k = k ack { s.advanceProbe with
      seq := .wait cmd, trace := s.trace ++ [.probeRequest s.address, .probeAnswer ack] } := by
  obtain ⟨a, ha', e⟩ | ⟨hn, _⟩ := s.probeThen_cases cmd k
  · rw [ha', Option.some.injEq] at ha
    rw [e, ha, State.issue_of_idle _ _ _ hs]
    congr 1
    unfold State.advanceProbe
    cases s.probes <;> simp [State.record]
  · rw [hn] at ha
    cases ha

/-- In WAIT with the byte there, a read transaction puts only the answer on record and goes on. -/
theorem State.readThen_of_wait (s : State) (cmd latched : CmdWord) (k : Byte → State → State) (b : Byte)
    (hs : s.seq = .wait latched) (hb : s.nextRead = some b) :
    s.readThen cmd k = k b { s.advanceRead with trace := s.trace ++ [.readAnswer b] } := by
  unfold State.readThen
  simp [State.issue_of_wait _ _ _ _ hs, hb, State.record]

/-- In WAIT with the answer there, a probe transaction puts only the answer on record and goes on. -/
theorem State.probeThen_of_wait (s : State) (cmd latched : CmdWord) (k : Bool → State → State) (ack : Bool)
    (hs : s.seq = .wait latched) (ha : s.nextProbe = some ack) :
    s.probeThen cmd k = k ack { s.advanceProbe with trace := s.trace ++ [.probeAnswer ack] } := by
  unfold State.probeThen
  simp [State.issue_of_wait _ _ _ _ hs, ha, State.record]

/-! ### The slot loop -/

/-- The slot decoder writes the registers of its own slot and nothing else (41_poll_ops.md R72). -/
theorem decodeSlot_eq (delta : TransCode → Int) (value : Byte) (i : Slot) (s : State) :
    decodeSlot delta value i s =
      { s with
        lastPos := s.lastPos.set i (phaseOf i value)
        encoder := s.encoder.set i
          (addDelta (s.encoder.get i) (delta (transCode (s.lastPos.get i) (phaseOf i value)))) } := rfl

/-- The four values of the two-bit `count`. -/
theorem count_cases (c : BitVec 2) : c = 0 ∨ c = 1 ∨ c = 2 ∨ c = 3 := by
  revert c
  decide

/-- The decode loop: every active slot moves on by its own registers, every other keeps them, and nothing else changes. -/
theorem forActive_decodeSlot (delta : TransCode → Int) (value : Byte) (s : State) :
    ∃ p e, s.forActive (decodeSlot delta value) = { s with lastPos := p, encoder := e } ∧
      ∀ i : Slot,
        p.get i = (if i.index < s.count.toNat then phaseOf i value else s.lastPos.get i) ∧
        e.get i = (if i.index < s.count.toNat then
          addDelta (s.encoder.get i) (delta (transCode (s.lastPos.get i) (phaseOf i value))) else s.encoder.get i) := by
  refine ⟨(s.forActive (decodeSlot delta value)).lastPos, (s.forActive (decodeSlot delta value)).encoder,
    ?_, fun i => ⟨?_, ?_⟩⟩
  · obtain ⟨c, _, _, _, _, _, _, _, _, _, _⟩ := s
    rcases count_cases c with rfl | rfl | rfl | rfl <;> rfl
  · obtain ⟨c, _, _, _, _, _, _, _, _, _, _⟩ := s
    rcases count_cases c with rfl | rfl | rfl | rfl <;> cases i <;> rfl
  · obtain ⟨c, _, _, _, _, _, _, _, _, _, _⟩ := s
    rcases count_cases c with rfl | rfl | rfl | rfl <;> cases i <;> rfl

/-- INIT's loop: every active slot takes the phase of the sample, and nothing else changes. -/
theorem forActive_seedSlot (value : Byte) (s : State) :
    ∃ p, s.forActive (seedSlot value) = { s with lastPos := p } ∧
      ∀ i : Slot, p.get i = (if i.index < s.count.toNat then phaseOf i value else s.lastPos.get i) := by
  refine ⟨(s.forActive (seedSlot value)).lastPos, ?_, fun i => ?_⟩
  · obtain ⟨c, _, _, _, _, _, _, _, _, _, _⟩ := s
    rcases count_cases c with rfl | rfl | rfl | rfl <;> rfl
  · obtain ⟨c, _, _, _, _, _, _, _, _, _, _⟩ := s
    rcases count_cases c with rfl | rfl | rfl | rfl <;> cases i <;> rfl

/-- A poll with an equal byte only delivers 0 (41_poll_ops.md R74). -/
theorem pollWith_of_eq (delta : TransCode → Int) (value : Byte) (s : State) (h : value = s.lastValue) :
    pollWith delta value s = s.commit (.bit false) := by
  simp [pollWith, sampleDiffers, h]

/-- A poll with another byte decodes the active slots, latches the byte and delivers 1 (41_poll_ops.md R70, R71). -/
theorem pollWith_of_ne (delta : TransCode → Int) (value : Byte) (s : State) (h : value ≠ s.lastValue) :
    pollWith delta value s = ((s.forActive (decodeSlot delta value)).setLastValue value).commit (.bit true) := by
  simp [pollWith, sampleDiffers, h]

/-! ### The next action -/

/-- The five things a step can do. -/
theorem State.nextAction_cases (s : State) :
    (∃ a rest, s.caller = .reset a :: rest ∧ s.nextAction = .settle (s.applyReset a rest)) ∨
    (∃ w rest, s.seq = .idle ∧ s.caller = .present w :: rest ∧ s.nextAction = .run w { s with caller := rest }) ∨
    (∃ rest, s.seq = .idle ∧ s.caller = .observe :: rest ∧ s.nextAction = .settle { s with caller := rest }) ∨
    (s.seq = .idle ∧ s.caller = [] ∧ s.nextAction = .settle s) ∨
    (∃ w rest, s.seq = .wait w ∧ (s.caller = .observe :: rest ∨
        (s.caller = rest ∧ (rest = [] ∨ ∃ v r, rest = .present v :: r))) ∧
      s.nextAction = .run w { s with caller := rest }) := by
  obtain ⟨_, _, _, _, q, _, c, _, _, _, _⟩ := s
  cases q with
  | idle =>
    cases c with
    | nil => exact .inr (.inr (.inr (.inl ⟨rfl, rfl, rfl⟩)))
    | cons x rest =>
      cases x with
      | present w => exact .inr (.inl ⟨w, rest, rfl, rfl, rfl⟩)
      | reset a => exact .inl ⟨a, rest, rfl, rfl⟩
      | observe => exact .inr (.inr (.inl ⟨rest, rfl, rfl, rfl⟩))
  | wait w =>
    cases c with
    | nil => exact .inr (.inr (.inr (.inr ⟨w, [], rfl, .inr ⟨rfl, .inl rfl⟩, rfl⟩)))
    | cons x rest =>
      cases x with
      | present v => exact .inr (.inr (.inr (.inr ⟨w, _, rfl, .inr ⟨rfl, .inr ⟨v, rest, rfl⟩⟩, rfl⟩)))
      | reset a => exact .inl ⟨a, rest, rfl, rfl⟩
      | observe => exact .inr (.inr (.inr (.inr ⟨w, rest, rfl, .inl rfl, rfl⟩)))

end Sys2Proof.Machine
end

