-- ==== Sys2Proof/Laws/Poll.lean ====
section
/-! SUPPORT. What the two decoding polls and INIT do to the registers, whatever `seq` is (41_poll_ops.md R70 to R76,
40_lifecycle_ops.md R66). -/

namespace Sys2Proof.Machine

/-- The accumulators wrap at `2^32` (41_poll_ops.md R80). -/
theorem two_pow_encWidth : 2 ^ Config.encWidth = 4294967296 := rfl

/-- The same as an integer. -/
theorem two_pow_encWidth_int : (2 : Int) ^ Config.encWidth = 4294967296 := rfl

/-- Two additions to an accumulator are one (41_poll_ops.md R80). -/
theorem addDelta_addDelta (e : Acc) (x y : Int) : addDelta (addDelta e x) y = addDelta e (x + y) := by
  unfold addDelta
  rw [BitVec.add_assoc, BitVec.ofInt_add]

/-- No movement leaves the accumulator alone. -/
theorem addDelta_zero (e : Acc) : addDelta e 0 = e := by
  simp [addDelta]

/-- The registers after UPDATE or UPDSGL, said once for both outcome tables. -/
theorem State.readThen_pollWith_registers (delta : TransCode → Int) (cmd : CmdWord) (s : State) :
    (s.readThen cmd (pollWith delta)).count = s.count ∧
    (s.nextRead = none →
      (s.readThen cmd (pollWith delta)).lastValue = s.lastValue ∧
      (s.readThen cmd (pollWith delta)).lastPos = s.lastPos ∧
      (s.readThen cmd (pollWith delta)).encoder = s.encoder) ∧
    (∀ b, s.nextRead = some b →
      (s.readThen cmd (pollWith delta)).lastValue = b ∧
      ∀ i : Slot,
        (s.readThen cmd (pollWith delta)).lastPos.get i =
          (if b ≠ s.lastValue ∧ i.index < s.count.toNat then phaseOf i b else s.lastPos.get i) ∧
        (s.readThen cmd (pollWith delta)).encoder.get i =
          (if b ≠ s.lastValue ∧ i.index < s.count.toNat then
            addDelta (s.encoder.get i) (delta (transCode (s.lastPos.get i) (phaseOf i b))) else s.encoder.get i)) := by
  obtain ⟨b, hb, e⟩ | ⟨hn, e⟩ := s.readThen_cases cmd (pollWith delta)
  · rw [e]
    by_cases hv : b = s.lastValue
    · rw [pollWith_of_eq _ _ _ (by simpa using hv)]
      simp [hb, hv]
    · rw [pollWith_of_ne _ _ _ (by simpa using hv)]
      obtain ⟨p, q, hf, hpq⟩ := forActive_decodeSlot delta b
        ((s.issue cmd (.readRequest s.address)).advanceRead.record (.readAnswer b))
      rw [hf]
      simp only [State.record_lastPos, State.record_encoder, State.record_count, State.advanceRead_lastPos,
        State.advanceRead_encoder, State.advanceRead_count, State.issue_lastPos, State.issue_encoder,
        State.issue_count] at hpq
      simp [hb, hv, hpq]
  · rw [e]
    simp [hn]

/-- The registers after INIT. -/
theorem State.readThen_init_registers (cmd : CmdWord) (s : State) :
    let t := s.readThen cmd fun value u => ((u.setLastValue value).forActive (seedSlot value)).commit .noValue
    t.count = s.count ∧ t.encoder = s.encoder ∧
    (s.nextRead = none → t.lastValue = s.lastValue ∧ t.lastPos = s.lastPos) ∧
    (∀ b, s.nextRead = some b → t.lastValue = b ∧
      ∀ i : Slot, t.lastPos.get i = if i.index < s.count.toNat then phaseOf i b else s.lastPos.get i) := by
  intro t
  obtain ⟨b, hb, e⟩ | ⟨hn, e⟩ := s.readThen_cases cmd
    fun value u => ((u.setLastValue value).forActive (seedSlot value)).commit .noValue
  · obtain ⟨p, hf, hp⟩ := forActive_seedSlot b
      (((s.issue cmd (.readRequest s.address)).advanceRead.record (.readAnswer b)).setLastValue b)
    rw [hf] at e
    simp only [State.setLastValue_count, State.setLastValue_lastPos, State.record_lastPos, State.record_count,
      State.advanceRead_lastPos, State.advanceRead_count, State.issue_lastPos, State.issue_count] at hp
    simp [t, e, hb, hp]
  · simp [t, e, hn]

end Sys2Proof.Machine
end

