-- ==== Sys2Proof/Laws/Exec.lean ====
section
/-! SUPPORT. What a step can do, said once: a step settles the state or runs one command. -/

namespace Sys2Proof.Machine

/-- A step that answers `t` is a reset, a step without a command, a reserved word, or the run of one decoded command. -/
theorem step_cases {s t : State} (h : step s = .next t) :
    (∃ a rest, s.caller = .reset a :: rest ∧ t = s.applyReset a rest) ∨
    (∃ rest, s.seq = .idle ∧ (s.caller = .observe :: rest ∨ (s.caller = [] ∧ rest = [])) ∧ t = { s with caller := rest }) ∨
    (∃ w rest, (s.seq = .idle ∧ s.caller = .present w :: rest ∨
        s.seq = .wait w ∧ (s.caller = .observe :: rest ∨ (s.caller = rest ∧ (rest = [] ∨ ∃ v r, rest = .present v :: r)))) ∧
      s.nextAction = .run w { s with caller := rest } ∧
      ((∃ i, decode w = .ok i ∧ exec i { s with caller := rest } = .next t) ∨
       (∃ e, decode w = .error e ∧ t = State.commit { s with caller := rest } (.bit false)))) := by
  have run : ∀ w u, s.nextAction = .run w u →
      (∃ i, decode w = .ok i ∧ exec i u = .next t) ∨ (∃ e, decode w = .error e ∧ t = u.commit (.bit false)) := by
    intro w u hn
    unfold step at h
    simp only [hn] at h
    split at h
    · next i hi => exact .inl ⟨i, hi, h⟩
    · next e he => exact .inr ⟨e, he, (Host.Outcome.next.inj h).symm⟩
  have settled : ∀ u, s.nextAction = .settle u → t = u := by
    intro u hn
    unfold step at h
    simp only [hn] at h
    exact (Host.Outcome.next.inj h).symm
  obtain ⟨a, rest, hc, hn⟩ | ⟨w, rest, hq, hc, hn⟩ | ⟨rest, hq, hc, hn⟩ | ⟨hq, hc, hn⟩ | ⟨w, rest, hq, hc, hn⟩ :=
    s.nextAction_cases
  · exact .inl ⟨a, rest, hc, settled _ hn⟩
  · exact .inr (.inr ⟨w, rest, .inl ⟨hq, hc⟩, hn, run _ _ hn⟩)
  · exact .inr (.inl ⟨rest, hq, .inl hc, settled _ hn⟩)
  · exact .inr (.inl ⟨[], hq, .inr ⟨hc, rfl⟩, by rw [settled _ hn, ← hc]⟩)
  · exact .inr (.inr ⟨w, rest, .inr ⟨hq, hc⟩, hn, run _ _ hn⟩)

/-- No steps leave the state alone. -/
theorem runSteps_zero (s : State) : runSteps 0 s = .next s := rfl

/-- One step, then the others. -/
theorem runSteps_succ {s t : State} (n : Nat) (h : step s = .next t) : runSteps (n + 1) s = runSteps n t := by
  have hc : Host.Core.step Sys2Proof.core s = .next t := h
  unfold runSteps
  simp only [Host.Core.run]
  rw [hc]

/-! Each command is its one transaction and what it does with the answer. -/

theorem exec_begin (n : Arg) (s : State) : exec (.begin n) s = .next (s.probeThen (encode (.begin n)) fun ack t =>
    (t.setCount (clampSlotCount n)).commit (.bit ack)) := rfl

theorem exec_isconn (a : Arg) (s : State) :
    exec (.isconn a) s = .next (s.probeThen (encode (.isconn a)) fun ack t => t.commit (.bit ack)) := rfl

theorem exec_init (a : Arg) (s : State) : exec (.init a) s = .next (s.readThen (encode (.init a)) fun value t =>
    ((t.setLastValue value).forActive (seedSlot value)).commit .noValue) := rfl

theorem exec_haschg (a : Arg) (s : State) : exec (.haschg a) s = .next (s.readThen (encode (.haschg a)) fun value t =>
    t.commit (.bit (sampleDiffers value t.lastValue))) := rfl

theorem exec_update (a : Arg) (s : State) :
    exec (.update a) s = .next (s.readThen (encode (.update a)) (pollWith deltaU)) := rfl

theorem exec_updsgl (a : Arg) (s : State) :
    exec (.updsgl a) s = .next (s.readThen (encode (.updsgl a)) (pollWith deltaS)) := rfl

theorem exec_key (slot : Arg) (s : State) : exec (.key slot) s = .next (s.commit (.bit (keyResult slot s.lastValue))) := rfl

/-! What every command does at the ports, and to the registers. -/

/-- What a poll adds after its answer: the result, at one commit that brings the block back to IDLE. -/
theorem pollWith_ports (delta : TransCode → Int) (b : Byte) (u : State) :
    ∃ r, (pollWith delta b u).seq = .idle ∧ (pollWith delta b u).trace = u.trace ++ [.done r] ∧
      (pollWith delta b u).address = u.address ∧ (pollWith delta b u).caller = u.caller ∧
      (pollWith delta b u).reads = u.reads ∧ (pollWith delta b u).probes = u.probes ∧
      (pollWith delta b u).draws = u.draws := by
  by_cases hv : b = u.lastValue
  · rw [pollWith_of_eq _ _ _ hv]
    exact ⟨_, rfl, rfl, rfl, rfl, rfl, rfl, rfl⟩
  · rw [pollWith_of_ne _ _ _ hv]
    obtain ⟨p, q, e, _⟩ := forActive_decodeSlot delta b u
    rw [e]
    exact ⟨_, rfl, rfl, rfl, rfl, rfl, rfl, rfl⟩

/-- A continuation that commits: the result is delivered, the block is idle, address and caller are left alone. -/
def Commits {α : Type} (k : α → State → State) : Prop :=
  ∀ v u, ∃ r, (k v u).seq = .idle ∧ (k v u).trace = u.trace ++ [.done r] ∧
    (k v u).address = u.address ∧ (k v u).caller = u.caller

/-- A read transaction at the ports: answered and committed, or waiting (20_memory.md R38, R40). -/
theorem State.readThen_ports (s : State) (cmd : CmdWord) (k : Byte → State → State) (hk : Commits k) :
    (s.readThen cmd k).address = s.address ∧ (s.readThen cmd k).caller = s.caller ∧
    ((∃ b r, s.nextRead = some b ∧ (s.readThen cmd k).seq = .idle ∧
        (s.readThen cmd k).trace = (s.issue cmd (.readRequest s.address)).trace ++ [.readAnswer b, .done r]) ∨
     (s.nextRead = none ∧ s.readThen cmd k = (s.issue cmd (.readRequest s.address)).advanceRead)) := by
  obtain ⟨b, hb, e⟩ | ⟨hn, e⟩ := s.readThen_cases cmd k
  · obtain ⟨r, h1, h2, h3, h4⟩ := hk b ((s.issue cmd (.readRequest s.address)).advanceRead.record (.readAnswer b))
    rw [e]
    refine ⟨by simpa using h3, by simpa using h4, .inl ⟨b, r, hb, h1, ?_⟩⟩
    rw [h2]
    simp
  · rw [e]
    exact ⟨by simp, by simp, .inr ⟨hn, rfl⟩⟩

/-- A probe transaction at the ports, in the same way. -/
theorem State.probeThen_ports (s : State) (cmd : CmdWord) (k : Bool → State → State) (hk : Commits k) :
    (s.probeThen cmd k).address = s.address ∧ (s.probeThen cmd k).caller = s.caller ∧
    ((∃ ack r, s.nextProbe = some ack ∧ (s.probeThen cmd k).seq = .idle ∧
        (s.probeThen cmd k).trace = (s.issue cmd (.probeRequest s.address)).trace ++ [.probeAnswer ack, .done r]) ∨
     (s.nextProbe = none ∧ s.probeThen cmd k = (s.issue cmd (.probeRequest s.address)).advanceProbe)) := by
  obtain ⟨b, hb, e⟩ | ⟨hn, e⟩ := s.probeThen_cases cmd k
  · obtain ⟨r, h1, h2, h3, h4⟩ := hk b ((s.issue cmd (.probeRequest s.address)).advanceProbe.record (.probeAnswer b))
    rw [e]
    refine ⟨by simpa using h3, by simpa using h4, .inl ⟨b, r, hb, h1, ?_⟩⟩
    rw [h2]
    simp
  · rw [e]
    exact ⟨by simp, by simp, .inr ⟨hn, rfl⟩⟩

/-- What the command does once its read is answered commits. -/
theorem pollWith_commits (delta : TransCode → Int) : Commits (pollWith delta) := by
  intro b u
  obtain ⟨r, h1, h2, h3, h4, _⟩ := pollWith_ports delta b u
  exact ⟨r, h1, h2, h3, h4⟩

/-- The same for INIT. -/
theorem init_commits :
    Commits fun value (u : State) => ((u.setLastValue value).forActive (seedSlot value)).commit .noValue := by
  intro b u
  obtain ⟨p, e, _⟩ := forActive_seedSlot b (u.setLastValue b)
  dsimp only
  rw [e]
  exact ⟨_, rfl, rfl, rfl, rfl⟩

/-- What a command does at the ports: it commits without a transaction (KEY), or its one transaction is answered and it
commits, or it is not answered and the block waits (20_memory.md R35, R38, R40). It leaves address and caller alone. -/
theorem exec_ports {i : Instr} {s t : State} (h : exec i s = .next t) :
    t.address = s.address ∧ t.caller = s.caller ∧
    ((transactionOf i = .none ∧ ∃ r, t.seq = .idle ∧ t.trace = s.trace ++ [.done r]) ∨
     (transactionOf i = .read ∧
        ((∃ b r, s.nextRead = some b ∧ t.seq = .idle ∧
            t.trace = (s.issue (encode i) (.readRequest s.address)).trace ++ [.readAnswer b, .done r]) ∨
         (s.nextRead = none ∧ t = (s.issue (encode i) (.readRequest s.address)).advanceRead))) ∨
     (transactionOf i = .probe ∧
        ((∃ ack r, s.nextProbe = some ack ∧ t.seq = .idle ∧
            t.trace = (s.issue (encode i) (.probeRequest s.address)).trace ++ [.probeAnswer ack, .done r]) ∨
         (s.nextProbe = none ∧ t = (s.issue (encode i) (.probeRequest s.address)).advanceProbe)))) := by
  cases i with
  | begin n =>
    rw [← Host.Outcome.next.inj h]
    obtain ⟨h1, h2, h3⟩ := s.probeThen_ports (encode (.begin n))
      (fun ack t => (t.setCount (clampSlotCount n)).commit (.bit ack)) (fun v u => ⟨_, rfl, rfl, rfl, rfl⟩)
    exact ⟨h1, h2, .inr (.inr ⟨rfl, h3⟩)⟩
  | isconn a =>
    rw [← Host.Outcome.next.inj h]
    obtain ⟨h1, h2, h3⟩ := s.probeThen_ports (encode (.isconn a))
      (fun ack t => t.commit (.bit ack)) (fun v u => ⟨_, rfl, rfl, rfl, rfl⟩)
    exact ⟨h1, h2, .inr (.inr ⟨rfl, h3⟩)⟩
  | init a =>
    rw [← Host.Outcome.next.inj h]
    obtain ⟨h1, h2, h3⟩ := s.readThen_ports (encode (.init a)) _ init_commits
    exact ⟨h1, h2, .inr (.inl ⟨rfl, h3⟩)⟩
  | haschg a =>
    rw [← Host.Outcome.next.inj h]
    obtain ⟨h1, h2, h3⟩ := s.readThen_ports (encode (.haschg a))
      (fun value t => t.commit (.bit (sampleDiffers value t.lastValue))) (fun v u => ⟨_, rfl, rfl, rfl, rfl⟩)
    exact ⟨h1, h2, .inr (.inl ⟨rfl, h3⟩)⟩
  | update a =>
    rw [← Host.Outcome.next.inj h]
    obtain ⟨h1, h2, h3⟩ := s.readThen_ports (encode (.update a)) _ (pollWith_commits deltaU)
    exact ⟨h1, h2, .inr (.inl ⟨rfl, h3⟩)⟩
  | updsgl a =>
    rw [← Host.Outcome.next.inj h]
    obtain ⟨h1, h2, h3⟩ := s.readThen_ports (encode (.updsgl a)) _ (pollWith_commits deltaS)
    exact ⟨h1, h2, .inr (.inl ⟨rfl, h3⟩)⟩
  | key slot =>
    rw [← Host.Outcome.next.inj h]
    exact ⟨rfl, rfl, .inl ⟨rfl, _, rfl, rfl⟩⟩

/-- BEGIN writes `count` at its commit, and no command but BEGIN writes it (10_state.md R11). -/
theorem exec_count {i : Instr} {s t : State} (h : exec i s = .next t) :
    t.count = s.count ∨ ∃ n ack, i = .begin n ∧ s.nextProbe = some ack ∧ t.count = clampSlotCount n := by
  cases i with
  | begin n =>
    rw [← Host.Outcome.next.inj h]
    obtain ⟨a, ha, e⟩ | ⟨_, e⟩ := s.probeThen_cases (encode (.begin n))
      fun ack t => (t.setCount (clampSlotCount n)).commit (.bit ack)
    · exact .inr ⟨n, a, rfl, ha, by simp [e]⟩
    · exact .inl (by simp [e])
  | isconn a =>
    rw [← Host.Outcome.next.inj h]
    obtain ⟨a, ha, e⟩ | ⟨_, e⟩ := s.probeThen_cases (encode (.isconn a)) fun ack t => t.commit (.bit ack)
    · exact .inl (by simp [e])
    · exact .inl (by simp [e])
  | init a =>
    rw [← Host.Outcome.next.inj h]
    exact .inl (s.readThen_init_registers (encode (.init a))).1
  | haschg a =>
    rw [← Host.Outcome.next.inj h]
    obtain ⟨a, ha, e⟩ | ⟨_, e⟩ := s.readThen_cases (encode (.haschg a))
      fun value t => t.commit (.bit (sampleDiffers value t.lastValue))
    · exact .inl (by simp [e])
    · exact .inl (by simp [e])
  | update a =>
    rw [← Host.Outcome.next.inj h]
    exact .inl (s.readThen_pollWith_registers deltaU (encode (.update a))).1
  | updsgl a =>
    rw [← Host.Outcome.next.inj h]
    exact .inl (s.readThen_pollWith_registers deltaS (encode (.updsgl a))).1
  | key slot =>
    rw [← Host.Outcome.next.inj h]
    exact .inl rfl

/-- BEGIN, ISCONN, HASCHG and KEY write none of `lastValue`, `lastPos`, `encoder` (10_state.md R10). -/
theorem exec_query_registers {i : Instr} {s t : State} (h : exec i s = .next t)
    (hi : (∃ n, i = .begin n) ∨ (∃ a, i = .isconn a) ∨ (∃ a, i = .haschg a) ∨ ∃ a, i = .key a) :
    t.lastValue = s.lastValue ∧ t.lastPos = s.lastPos ∧ t.encoder = s.encoder := by
  obtain ⟨n, rfl⟩ | ⟨a, rfl⟩ | ⟨a, rfl⟩ | ⟨a, rfl⟩ := hi
  · rw [← Host.Outcome.next.inj h]
    obtain ⟨_, _, e⟩ | ⟨_, e⟩ := s.probeThen_cases (encode (.begin n))
      fun ack t => (t.setCount (clampSlotCount n)).commit (.bit ack)
    · simp [e]
    · simp [e]
  · rw [← Host.Outcome.next.inj h]
    obtain ⟨_, _, e⟩ | ⟨_, e⟩ := s.probeThen_cases (encode (.isconn a)) fun ack t => t.commit (.bit ack)
    · simp [e]
    · simp [e]
  · rw [← Host.Outcome.next.inj h]
    obtain ⟨_, _, e⟩ | ⟨_, e⟩ := s.readThen_cases (encode (.haschg a))
      fun value t => t.commit (.bit (sampleDiffers value t.lastValue))
    · simp [e]
    · simp [e]
  · rw [← Host.Outcome.next.inj h]
    exact ⟨rfl, rfl, rfl⟩

end Sys2Proof.Machine
end

