-- ==== Sys2Proof/Tests/Slice0.lean ====
section
/-! SUPPORT. The model's own tests. Expected values are the spec's vectors (95_test_vectors.md) or are worked out by hand
from the rule named. Then one witness for every statement that has hypotheses: a state and operands that meet them all. -/

namespace Sys2Proof.Tests

open Sys2Proof Sys2Proof.Machine

/-! ### Well-formedness: each check refuses an ill-formed term -/

/-- R60: 0x0FF is reserved. -/
theorem test_admitted_refuses_reserved : CmdWord.admitted 0x0FF#11 = false := by decide

theorem test_admitted_takes_begin : CmdWord.admitted 0x100#11 = true := by decide

/-- R60, R62: a program with a reserved word in it. -/
theorem test_programAdmitted_refuses : programAdmitted [0x102#11, 0x000#11] = false := by decide

/-- R61: the five operations without an operand, each with a bit set in the ignored field. -/
theorem test_assembled_refuses :
    [Instr.isconn 1, .init 1, .haschg 0x80, .update 1, .updsgl 0xFF].all (fun i => !i.assembled) = true := by decide

/-! ### Decoding: words written out bit by bit from R54 and R56 (`op[2:0] arg[7:0]`) -/

theorem test_decode_begin : decode 0b00100000101#11 = .ok (.begin 5) := by decide
theorem test_decode_isconn : decode 0b01010100101#11 = .ok (.isconn 0xA5) := by decide
theorem test_decode_init : decode 0b01100000000#11 = .ok (.init 0) := by decide
theorem test_decode_haschg : decode 0b10000000000#11 = .ok (.haschg 0) := by decide
theorem test_decode_update : decode 0b10111111111#11 = .ok (.update 0xFF) := by decide
theorem test_decode_updsgl : decode 0b11000000000#11 = .ok (.updsgl 0) := by decide
theorem test_decode_key : decode 0b11100000001#11 = .ok (.key 1) := by decide
theorem test_decode_reserved : decode 0b00011111111#11 = .error (.reservedOpcode 0xFF) := by decide

/-- R62: the encodings an assembler writes. -/
theorem test_encode_words :
    [Instr.begin 5, .isconn 0, .init 0, .haschg 0, .update 0, .updsgl 0, .key 1].map encode =
      [0x105#11, 0x200#11, 0x300#11, 0x400#11, 0x500#11, 0x600#11, 0x701#11] := by decide

/-- The table's numbering is the port's; a number of twelve bits is no command word. -/
theorem test_decodeTableWord : decodeTableWord 16 0x7FF = some (.key 255) ∧ decodeTableWord 16 0x000 = none ∧
    decodeTableWord 16 0x900 = none := by decide

/-! ### The outcome tables: the rows of spec/transition_table.json, codes 0000 to 1111 in order -/

theorem test_deltaU_table : (List.range 16).map (fun n => deltaU (BitVec.ofNat 4 n)) =
    [0, 1, -1, 0, -1, 0, 0, 1, 1, 0, 0, -1, 0, -1, 1, 0] := by decide

theorem test_deltaS_table : (List.range 16).map (fun n => deltaS (BitVec.ofNat 4 n)) =
    [0, 1, 3, 2, 3, 0, 2, 1, 1, 2, 0, 3, 2, 3, 1, 0] := by decide

/-! ### Commands -/

/-- An idle block at bus address 0x38 with the given registers and the given answers to come. -/
def idleBlock (count : BitVec 2) (lastValue : Byte) (p0 p1 : Phase) (e0 e1 : Acc)
    (reads : List (Option Byte)) (probes : List (Option Bool)) : State where
  count := count
  lastValue := lastValue
  lastPos := ⟨p0, p1⟩
  encoder := ⟨e0, e1⟩
  seq := .idle
  address := 0x38
  caller := []
  reads := reads
  probes := probes
  draws := 0
  trace := []

/-- The registers shown after a step. -/
def shown : Host.Outcome State Fault Refusal → Option Observation
  | .next t => some t.observed
  | .fault _ => none
  | .refused _ => none

/-- What passed the ports, after a step. -/
def passed : Host.Outcome State Fault Refusal → Option (List Event)
  | .next t => some t.trace
  | .fault _ => none
  | .refused _ => none

/-- The sequencing state after a step. -/
def seqAfter : Host.Outcome State Fault Refusal → Option SeqState
  | .next t => some t.seq
  | .fault _ => none
  | .refused _ => none

/-- Section 2.2: BEGIN 5, not acknowledged: `count` is written all the same. -/
theorem test_begin_clamps : shown (exec (.begin 5) (idleBlock 1 0x44 1 2 7 8 [] [some false])) =
    some ⟨2, 0x44, 1, 2, 7, 8⟩ := by decide

theorem test_begin_ports : passed (exec (.begin 0) (idleBlock 1 0x44 1 2 7 8 [] [some true])) =
    some [.probeRequest 0x38, .probeAnswer true, .done (.bit true)] := by decide

/-- Section 2.2: ISCONN, not acknowledged. -/
theorem test_isconn_ports : passed (exec (.isconn 0) (idleBlock 0 0 0 0 0 0 [] [some false])) =
    some [.probeRequest 0x38, .probeAnswer false, .done (.bit false)] := by decide

/-- Section 2.2: INIT with `count = 1`, byte 0x21: slot 1 keeps its 3. -/
theorem test_init_one_slot : shown (exec (.init 0) (idleBlock 1 0xFF 3 3 7 (-2) [some 0x21] [])) =
    some ⟨1, 0x21, 1, 3, 7, -2⟩ := by decide

/-- Section 2.2: INIT with `count = 2`, byte 0x9C. -/
theorem test_init_two_slots : shown (exec (.init 0) (idleBlock 2 0xFF 3 3 7 (-2) [some 0x9C] [])) =
    some ⟨2, 0x9C, 0, 1, 7, -2⟩ := by decide

/-- Section 2.3: HASCHG sees bit 7 change and stores nothing. -/
theorem test_haschg_bit7 : passed (exec (.haschg 0) (idleBlock 0 0x44 0 0 5 5 [some 0xC4] [])) =
    some [.readRequest 0x38, .readAnswer 0xC4, .done (.bit true)] := by decide

theorem test_haschg_stores_nothing : shown (exec (.haschg 0) (idleBlock 2 0x44 0 0 5 5 [some 0x65] [])) =
    some ⟨2, 0x44, 0, 0, 5, 5⟩ := by decide

/-- Vector V5: slot 0 forward, slot 1 reverse. -/
theorem test_update_V5 : shown (exec (.update 0) (idleBlock 2 0x44 0 0 5 5 [some 0x65] [])) =
    some ⟨2, 0x65, 1, 2, 6, 4⟩ := by decide

/-- Vector V10: both accumulators wrap. -/
theorem test_update_V10 : shown (exec (.update 0) (idleBlock 2 0x00 0 0 0x7FFFFFFF 0x80000000 [some 0x21] [])) =
    some ⟨2, 0x21, 1, 2, 0x80000000, 0x7FFFFFFF⟩ := by decide

/-- Vector V6: a reverse step adds 3. -/
theorem test_updsgl_V6 : shown (exec (.updsgl 0) (idleBlock 2 0x44 0 0 5 5 [some 0x65] [])) =
    some ⟨2, 0x65, 1, 2, 6, 8⟩ := by decide

/-- Vector V11: the addition of 3 wraps. -/
theorem test_updsgl_V11 : shown (exec (.updsgl 0) (idleBlock 1 0x00 0 0 0xFFFFFFFE 0 [some 0x02] [])) =
    some ⟨1, 0x02, 2, 0, 1, 0⟩ := by decide

/-- Section 2.7: `lastValue = 0x43`: button 0 pressed, button 1 not. -/
theorem test_key_43 : passed (exec (.key 0) (idleBlock 0 0x43 0 0 0 0 [] [])) = some [.done (.bit true)] ∧
    passed (exec (.key 1) (idleBlock 0 0x43 0 0 0 0 [] [])) = some [.done (.bit false)] := by decide

/-- Section 2.7: KEY 2 returns 0. -/
theorem test_key_2 : passed (exec (.key 2) (idleBlock 0 0x00 0 0 0 0 [] [])) = some [.done (.bit false)] := by decide

/-! ### One step -/

/-- Section 2.8: the reserved word is quiet. -/
theorem test_step_reserved : passed (step ((idleBlock 2 0x32 2 3 0 0 [] []).withFetchWord 16 0x0FF)) =
    some [.done (.bit false)] := by decide

/-- Vector V8: a change in an inactive nibble, run by a step from a word. -/
theorem test_step_update_V8 : shown (step ((idleBlock 1 0x44 0 0 5 5 [some 0x64] []).withFetchWord 16 0x500)) =
    some ⟨1, 0x64, 0, 0, 5, 5⟩ := by decide

/-- R40: no answer yet: the block waits with the word latched, and shows the state before. -/
theorem test_step_waits : seqAfter (step ((idleBlock 2 0x44 0 0 5 5 [none] []).withFetchWord 16 0x5FF)) =
    some (.wait 0x5FF) := by decide

/-- R38: the answer comes later: the waiting command commits without a second request. -/
theorem test_step_resumes : passed (step { idleBlock 2 0x44 0 0 5 5 [some 0x44] [] with seq := .wait 0x500 }) =
    some [.readAnswer 0x44, .done (.bit false)] := by decide

/-- R105: reset out of WAIT, although an answer is there. -/
theorem test_step_reset : shown (step
    { idleBlock 2 0x44 0 0 5 5 [some 0x45] [] with seq := .wait 0x500, caller := [.reset 0x20] }) =
    some ⟨0, 0x00, 0, 0, 0, 0⟩ := by decide

/-! ### Witnesses -/

/-- BeginClampsCountAndReturnsAck, IsconnReturnsAckAndWritesNothing: idle, and the probe is answered. -/
theorem witness_probe_answered :
    (idleBlock 2 0x44 0 0 5 5 [] [some false]).seq = .idle ∧
    (idleBlock 2 0x44 0 0 5 5 [] [some false]).nextProbe = some false := by decide

/-- InitTakesTheBaselineSample, HaschgComparesAndStoresNothing: idle, and the read is answered. -/
theorem witness_read_answered :
    (idleBlock 1 0xFF 3 3 7 8 [some 0x21] []).seq = .idle ∧
    (idleBlock 1 0xFF 3 3 7 8 [some 0x21] []).nextRead = some 0x21 := by decide

/-- UpdateDecodesTheSample and UpdsglDecodesTheSample, the equal byte (vector V1). -/
theorem witness_poll_equal_byte :
    (idleBlock 2 0x44 0 0 5 5 [some 0x44] []).seq = .idle ∧
    (idleBlock 2 0x44 0 0 5 5 [some 0x44] []).nextRead = some (idleBlock 2 0x44 0 0 5 5 [some 0x44] []).lastValue := by
  decide

/-- The same, a byte that differs with `count = 2`: slot 0 active with a forward code, slot 1 active with a reverse code. -/
theorem witness_poll_forward_and_reverse :
    (idleBlock 2 0x44 0 0 5 5 [some 0x65] []).nextRead = some 0x65 ∧ (0x65 : Byte) ≠ 0x44 ∧
    ((0#2 ++ (0x65 : Byte).extractLsb' 0 2 : TransCode) ∈ [0b0001#4, 0b0111#4, 0b1110#4, 0b1000#4]) ∧
    ((0#2 ++ (0x65 : Byte).extractLsb' 4 2 : TransCode) ∈ [0b0010#4, 0b0100#4, 0b1101#4, 0b1011#4]) ∧
    Slot.slot1.index < (idleBlock 2 0x44 0 0 5 5 [some 0x65] []).count.toNat := by decide

/-- The same, at the boundary `count = 1`: slot 0 active with a double step, slot 1 inactive. -/
theorem witness_poll_double_and_inactive :
    (idleBlock 1 0x44 0 0 5 5 [some 0x57] []).nextRead = some 0x57 ∧
    ((0#2 ++ (0x57 : Byte).extractLsb' 0 2 : TransCode) ∈ [0b0011#4, 0b0110#4, 0b1001#4, 0b1100#4]) ∧
    Slot.slot0.index < (idleBlock 1 0x44 0 0 5 5 [some 0x57] []).count.toNat ∧
    (idleBlock 1 0x44 0 0 5 5 [some 0x57] []).count.toNat ≤ Slot.slot1.index := by decide

/-- The same, no movement: the code of an active slot is in none of the counting sets (vector V3). -/
theorem witness_poll_no_movement :
    (idleBlock 2 0x44 0 0 5 5 [some 0x40] []).nextRead = some 0x40 ∧ (0x40 : Byte) ≠ 0x44 ∧
    ((0#2 ++ (0x40 : Byte).extractLsb' 0 2 : TransCode) ∉
      [0b0001#4, 0b0111#4, 0b1110#4, 0b1000#4, 0b0011#4, 0b0110#4, 0b1001#4, 0b1100#4,
       0b0010#4, 0b0100#4, 0b1101#4, 0b1011#4]) := by decide

/-- IgnoredOperandHasNoEffect: one of the five operations. -/
theorem witness_ignored_operand : Instr.haschg ∈ [Instr.isconn, Instr.init, Instr.haschg, Instr.update, Instr.updsgl] := by
  simp

/-- ResetAbandonsTheCommandInProgress, and the first clause of AddressChangesOnlyAtReset: reset presented in WAIT. -/
theorem witness_reset_in_wait : ∃ (s t : State) (a : BusAddr) (rest : List CallerAct),
    s.seq = .wait 0x500 ∧ s.caller = .reset a :: rest ∧ step s = .next t :=
  ⟨{ idleBlock 2 0x44 0 0 5 5 [] [] with seq := .wait 0x500, caller := [.reset 0x20] }, _, 0x20, [], rfl, rfl, rfl⟩

/-- The second clause of AddressChangesOnlyAtReset, OnlyTheNamedCommandsWriteTheRegisters and EveryStepKeepsCountLegal: a step
that is no reset, from a legal state. -/
theorem witness_step_without_reset : ∃ s t : State, s.CountLegal ∧ s.resetNext = false ∧ step s = .next t :=
  ⟨(idleBlock 2 0x44 0 0 5 5 [some 0x65] []).withFetchWord 16 0x500, _, by decide, rfl, rfl⟩

/-- OnlyTheNamedCommandsWriteTheRegisters, each clause at a state where it bites: `count` by BEGIN 255, `lastValue` and
`lastPos[0]` by UPDATE. -/
theorem witness_registers_change :
    shown (step ((idleBlock 1 0x44 0 0 5 5 [] [some true]).withFetchWord 16 0x1FF)) = some ⟨2, 0x44, 0, 0, 5, 5⟩ ∧
    shown (step ((idleBlock 1 0x44 0 0 5 5 [some 0x65] []).withFetchWord 16 0x500)) = some ⟨1, 0x65, 1, 0, 6, 5⟩ := by
  decide

/-- SlotsDecodeIndependently: slot 1 alike in two states that differ in everything else. -/
theorem witness_slots_independent : ∃ (s s' t t' : State),
    s.slotActive .slot1 ∧ s'.slotActive .slot1 ∧ s.nextRead = some 0x65 ∧ s'.nextRead = some 0x2A ∧
    (0x65 : Byte) ≠ s.lastValue ∧ (0x2A : Byte) ≠ s'.lastValue ∧
    (0x65 : Byte).extractLsb' (4 * Slot.slot1.index) 2 = (0x2A : Byte).extractLsb' (4 * Slot.slot1.index) 2 ∧
    s.lastPos.get .slot1 = s'.lastPos.get .slot1 ∧ s.encoder.get .slot1 = s'.encoder.get .slot1 ∧
    exec (.update 0) s = .next t ∧ exec (.update 0) s' = .next t' :=
  ⟨idleBlock 2 0x44 0 0 5 5 [some 0x65] [], idleBlock 2 0x0F 3 0 9 5 [some 0x2A] [], _, _,
    by unfold State.slotActive; decide, by unfold State.slotActive; decide, rfl, rfl, by decide, by decide, by decide,
    rfl, rfl, rfl, rfl⟩

/-- ChangeOutsidePhasesCountsNothing, accepted and waiting: only bit 3 changes (vector V4), in a synced state. -/
theorem witness_change_outside_phases : ∀ q ∈ [SeqState.idle, .wait (encode (.update 0))], ∃ (s : State) (b : Byte),
    s.seq = q ∧ s.nextRead = some b ∧ s.Synced ∧ b ≠ s.lastValue ∧
    ∀ i : Slot, s.slotActive i → b.extractLsb' (4 * i.index) 2 = s.lastValue.extractLsb' (4 * i.index) 2 := by
  intro q hq
  simp only [List.mem_cons, List.not_mem_nil, or_false] at hq
  rcases hq with rfl | rfl <;> exact
    ⟨{ idleBlock 2 0x44 0 0 5 5 [some 0x4C] [] with seq := _ }, 0x4C, rfl, rfl, fun i _ => by cases i <;> decide,
      by decide, fun i _ => by cases i <;> decide⟩

/-- UpdateWrapsInTheSignedReading at both limits (vector V10): slot 0 forward from the largest value, slot 1 reverse from the
most negative, accepted and waiting. -/
theorem witness_signed_limits : ∀ q ∈ [SeqState.idle, .wait (encode (.update 0))], ∃ s t : State,
    s.seq = q ∧ s.nextRead = some 0x21 ∧ (0x21 : Byte) ≠ s.lastValue ∧
    s.slotActive .slot0 ∧ s.slotActive .slot1 ∧ exec (.update 0) s = .next t ∧
    ((s.lastPos.get .slot0 ++ (0x21 : Byte).extractLsb' (4 * Slot.slot0.index) 2 : TransCode) ∈
      [0b0001#4, 0b0111#4, 0b1110#4, 0b1000#4]) ∧ (s.encoder.get .slot0).toInt = 2 ^ 31 - 1 ∧
    ((s.lastPos.get .slot1 ++ (0x21 : Byte).extractLsb' (4 * Slot.slot1.index) 2 : TransCode) ∈
      [0b0010#4, 0b0100#4, 0b1101#4, 0b1011#4]) ∧ (s.encoder.get .slot1).toInt = -2 ^ 31 := by
  intro q hq
  simp only [List.mem_cons, List.not_mem_nil, or_false] at hq
  rcases hq with rfl | rfl <;> exact
    ⟨{ idleBlock 2 0x00 0 0 0x7FFFFFFF 0x80000000 [some 0x21] [] with seq := _ }, _, rfl, rfl, by decide,
      (by decide : 0 < 2), (by decide : 1 < 2), rfl, by decide, by decide, by decide, by decide⟩

/-- UpdsglAddsTheCycleDistance, accepted and waiting: a reverse step from 0xFFFFFFFE (vector V11). -/
theorem witness_updsgl_wraps : ∀ q ∈ [SeqState.idle, .wait (encode (.updsgl 0))], ∃ s t : State,
    s.seq = q ∧ s.nextRead = some 0x02 ∧ (0x02 : Byte) ≠ s.lastValue ∧ s.slotActive .slot0 ∧ exec (.updsgl 0) s = .next t := by
  intro q hq
  simp only [List.mem_cons, List.not_mem_nil, or_false] at hq
  rcases hq with rfl | rfl <;> exact
    ⟨{ idleBlock 1 0x00 0 0 0xFFFFFFFE 0 [some 0x02] [] with seq := _ }, _, rfl, rfl, by decide,
      (by decide : 0 < 1), rfl⟩

/-- UpdsglTracksThePositionModuloFour: two UPDSGL commands, the first one's answer late. -/
theorem witness_updsgl_run : ∃ s t : State, s.slotActive .slot0 ∧
    [0#8, 0#8].foldlM (fun u a => match exec (.updsgl a) u with
      | .next v => some v | .fault _ => none | .refused _ => none) s = some t :=
  ⟨idleBlock 1 0x00 0 0 0 0 [none, some 0x01] [], _, by unfold State.slotActive; decide, rfl⟩

/-- UpdateTracksThePositionWithoutDoubleSteps: a forward step. -/
theorem witness_update_single_step : ∃ s t : State, s.slotActive .slot0 ∧
    (∀ b, s.nextRead = some b → (s.lastPos.get .slot0 ++ b.extractLsb' (4 * Slot.slot0.index) 2 : TransCode) ∉
      [0b0011#4, 0b0110#4, 0b1001#4, 0b1100#4]) ∧ exec (.update 0) s = .next t :=
  ⟨idleBlock 1 0x00 0 0 0 0 [some 0x01] [], _, by unfold State.slotActive; decide,
    fun b hb => by cases Option.some.inj hb; decide, rfl⟩

/-- StepAndReturnCancel: vectors V13 and V14. -/
theorem witness_step_and_return : ∃ s : State, s.seq = .idle ∧ s.slotActive .slot0 ∧
    s.reads = some 0x05 :: some 0x04 :: [] ∧ (0x05 : Byte) ≠ s.lastValue ∧ (0x04 : Byte) ≠ 0x05 ∧
    (0x04 : Byte).extractLsb' (4 * Slot.slot0.index) 2 = s.lastPos.get .slot0 ∧
    ((s.lastPos.get .slot0 ++ (0x05 : Byte).extractLsb' (4 * Slot.slot0.index) 2 : TransCode) ∈
      [0b0001#4, 0b0111#4, 0b1110#4, 0b1000#4, 0b0010#4, 0b0100#4, 0b1101#4, 0b1011#4]) :=
  ⟨idleBlock 1 0x04 0 0 0 0 [some 0x05, some 0x04] [], rfl, by unfold State.slotActive; decide, rfl, by decide, by decide,
    by decide, by decide⟩

/-- KeyReadsTheLatchedButton, KeyOutOfRangeReturnsFalse at the boundary operand 2, ObservingHasNoEffect. -/
theorem witness_key : (idleBlock 0 0x43 0 0 0 0 [] []).seq = .idle ∧ 2 ≤ (2 : Arg).toNat := by decide

/-- KeyAnswersFromTheLastCommittedSample: two bytes to come. -/
theorem witness_key_after_sample : Instr.update ∈ [Instr.init, Instr.update, Instr.updsgl] ∧
    (idleBlock 1 0x06 2 0 1 0 [some 0x03, some 0x16] []).reads = some 0x03 :: some 0x16 :: [] := by
  exact ⟨by simp, rfl⟩

/-- ButtonsReadPressedAfterReset: the reset state itself. -/
theorem witness_pressed : State.reset.seq = .idle ∧ State.reset.observed = State.reset.observed := ⟨rfl, rfl⟩

/-- StepRunsTheDecodedCommand, and ReservedWordIsQuiet at its largest word. -/
theorem witness_presented :
    ((idleBlock 1 0x44 0 0 5 5 [] []).withFetchWord 16 0x500).seq = .idle ∧
    ((idleBlock 1 0x44 0 0 5 5 [] []).withFetchWord 16 0x500).caller = .present 0x500 :: [] ∧
    decode 0x500 = .ok (.update 0) ∧
    ((idleBlock 1 0x44 0 0 5 5 [] []).withFetchWord 16 0x0FF).caller = .present 0x0FF :: [] ∧
    (0x0FF : CmdWord).toNat < 0x100 := by decide

/-- WaitingBlockRunsTheLatchedCommand, each clause: nothing, a word, or a look at the port to come. -/
theorem witness_waiting : ∀ rest ∈ [[], [CallerAct.present 0x700], [.observe, .present 0x700]],
    { idleBlock 1 0x44 0 0 5 5 [none] [] with seq := .wait 0x500, caller := rest }.seq = SeqState.wait 0x500 ∧
    decode 0x500 = .ok (.update 0) := by decide

/-- ObservingHasNoEffect, its second clause. -/
theorem witness_observing : { idleBlock 1 0x44 0 0 5 5 [] [] with caller := [.observe] }.seq = .idle ∧
    { idleBlock 1 0x44 0 0 5 5 [] [] with caller := [.observe] }.caller = .observe :: [] := by decide

/-- AccumulatorChangesOnlyByCounting: a step that changes `encoder[0]`. -/
theorem witness_accumulator_changes : ∃ s t : State, step s = .next t ∧ t.encoder.get .slot0 ≠ s.encoder.get .slot0 :=
  ⟨(idleBlock 1 0x44 0 0 5 5 [some 0x45] []).withFetchWord 16 0x600, _, rfl, by decide⟩

/-- CommandMakesItsFixedTransactions, HistoryAndAddressHaveNoInfluence: a command of each kind of transaction runs. -/
theorem witness_transactions : ∀ i ∈ [Instr.key 0, .update 0, .begin 1], ∃ t,
    (idleBlock 1 0x44 0 0 5 5 [some 0x45] [some true]).seq = .idle ∧
    exec i (idleBlock 1 0x44 0 0 5 5 [some 0x45] [some true]) = .next t := by
  intro i hi
  simp only [List.mem_cons, List.not_mem_nil, or_false] at hi
  rcases hi with rfl | rfl | rfl <;> exact ⟨_, rfl, rfl⟩

/-- WaitingCommandHasWrittenNothing: a step into WAIT. -/
theorem witness_step_into_wait : ∃ s t : State, step s = .next t ∧ t.seq = .wait 0x500 :=
  ⟨(idleBlock 1 0x44 0 0 5 5 [none] []).withFetchWord 16 0x500, _, rfl, rfl⟩

/-- StalledBusBlocksUntilReset with two steps of stall, for a read and for a probe, another word presented meanwhile. -/
theorem witness_stalled : ∀ wi ∈ [(0x500#11, Instr.update 0), (0x102#11, .begin 2)],
    { idleBlock 1 0x44 0 0 5 5 [none, none] [none, none] with
      caller := [.present wi.1, .observe, .present 0x700] }.seq = .idle ∧
    decode wi.1 = .ok wi.2 ∧ transactionOf wi.2 ≠ .none ∧
    [CallerAct.observe, .present 0x700].all (fun c => !c.isReset) = true ∧
    [none, none] = List.replicate (1 + 1) (none : Option Byte) ++ [] := by decide

/-- CommandCompletesAfterAnyFiniteDelay with a delay of one step: the caller looks at the port meanwhile, then presents another
word, and a reset stands behind it. -/
theorem witness_delayed : ∀ wi ∈ [(0x500#11, Instr.update 0), (0x102#11, .begin 2)],
    { idleBlock 1 0x44 0 0 5 5 [none, some 0x45] [none, some true] with
      caller := [.present wi.1, .observe, .present 0x700, .reset 0x20] }.seq = .idle ∧
    decode wi.1 = .ok wi.2 ∧ transactionOf wi.2 ≠ .none ∧
    ([CallerAct.observe, .present 0x700, .reset 0x20].take 1).all (fun c => !c.isReset) = true ∧
    [none, some 0x45] = List.replicate 1 (none : Option Byte) ++ some 0x45 :: [] ∧
    [none, some true] = List.replicate 1 (none : Option Bool) ++ some true :: [] := by decide

/-- LateProbeAnswerCommits, each clause: a block that waits for BEGIN 255 or for ISCONN, and its probe is answered. -/
theorem witness_late_probe : ∀ i ∈ [Instr.begin 0xFF, .isconn 0],
    { idleBlock 1 0x44 0 0 5 5 [] [some false] with seq := .wait (encode i) }.seq = .wait (encode i) ∧
    { idleBlock 1 0x44 0 0 5 5 [] [some false] with seq := .wait (encode i) }.nextProbe = some false := by decide

/-- LateSampleCommitsInitAndHaschg, each clause, and LateSampleCommitsThePolls for both polls, at `count = 1`: slot 0 active,
slot 1 inactive; with the byte 0x44 equal, with 0x57 a double step of slot 0. -/
theorem witness_late_sample : ∀ i ∈ [Instr.init 0, .haschg 0, .update 0, .updsgl 0], ∀ b ∈ [0x44#8, 0x57#8],
    { idleBlock 1 0x44 0 0 5 5 [some b] [] with seq := .wait (encode i) }.seq = .wait (encode i) ∧
    { idleBlock 1 0x44 0 0 5 5 [some b] [] with seq := .wait (encode i) }.nextRead = some b := by decide

/-- LateSampleCommitsThePolls: its two commands. -/
theorem witness_late_poll : ∀ f ∈ [(Instr.update 0, (0 : Acc), (-1 : Acc)), (.updsgl 0, 2, 3)],
    (f.1 = .update 0 ∧ f.2.1 = 0 ∧ f.2.2 = -1) ∨ (f.1 = .updsgl 0 ∧ f.2.1 = 2 ∧ f.2.2 = 3) := by decide

/-- R38 and vector V6 with a late answer: the waiting UPDSGL decodes both slots. -/
theorem test_updsgl_late_V6 : shown (exec (.updsgl 0) { idleBlock 2 0x44 0 0 5 5 [some 0x65] [] with seq := .wait 0x600 }) =
    some ⟨2, 0x65, 1, 2, 6, 8⟩ := by decide

/-- EveryStepKeepsThePortsOrderly: a waiting block whose request is on record. -/
theorem witness_orderly : ∃ s t : State, s.Orderly ∧ step s = .next t :=
  ⟨{ idleBlock 1 0x44 0 0 5 5 [some 0x45] [] with seq := .wait 0x500, trace := [.readRequest 0x38] }, _,
    ⟨by decide, by decide⟩, rfl⟩

/-- DecodedWordIsItsEncoding: a word that decodes. -/
theorem witness_decodes : decode 0x7FF = .ok (.key 0xFF) := by decide

/-- InitSyncsTheTrackers: INIT from a state whose trackers do not follow the latch (vector V15's start). -/
theorem witness_init_syncs : ∃ s t : State, s.nextRead = some 0x36 ∧ exec (.init 0) s = .next t :=
  ⟨idleBlock 2 0x00 2 0 0 0 [some 0x36] [], _, rfl, rfl⟩

/-- EveryStepKeepsTheTrackersSynced: an UPDATE that moves both trackers, from a synced state. -/
theorem witness_synced_step : ∃ s t : State, s.Synced ∧ step s = .next t ∧ t.count.toNat ≤ s.count.toNat :=
  ⟨(idleBlock 2 0x44 0 0 5 5 [some 0x65] []).withFetchWord 16 0x500, _, fun i _ => by cases i <;> decide, rfl, by decide⟩

end Sys2Proof.Tests
end

/-! # Which command writes which register: O31 and O32 (10_state.md R10, R17) -/

namespace Sys2Proof.Machine

/-! ### Outcome tables and operands -/

/-- Only a forward or a reverse code counts for UPDATE (30_encoding.md R51). -/
theorem mem_counting_of_deltaU_ne_zero : ∀ c : TransCode, deltaU c ≠ 0 →
    c ∈ [0b0001#4, 0b0111#4, 0b1110#4, 0b1000#4, 0b0010#4, 0b0100#4, 0b1101#4, 0b1011#4] := by
  decide

/-- For UPDSGL a double step counts too (30_encoding.md R52). -/
theorem mem_counting_of_deltaS_ne_zero : ∀ c : TransCode, deltaS c ≠ 0 →
    c ∈ [0b0001#4, 0b0111#4, 0b1110#4, 0b1000#4, 0b0011#4, 0b0110#4, 0b1001#4, 0b1100#4,
      0b0010#4, 0b0100#4, 0b1101#4, 0b1011#4] := by
  decide

/-- The two-bit field holds every clamped operand (30_encoding.md R58). -/
theorem clampSlotCount_toNat (n : Arg) : (clampSlotCount n).toNat = min n.toNat 2 := by
  rw [clampSlotCount, BitVec.toNat_ofNat]
  have hle : min n.toNat Config.maxSlots ≤ 2 := Nat.min_le_right _ _
  exact Nat.mod_eq_of_lt (by omega)

/-! ### What one transaction writes -/

/-- A poll that moves an accumulator has read a different byte, and the slot is active with a code that counts
(41_poll_ops.md R72, R74). -/
theorem State.readThen_pollWith_counts {delta : TransCode → Int} {cmd : CmdWord} {s : State} {j : Slot}
    (hne : (s.readThen cmd (pollWith delta)).encoder.get j ≠ s.encoder.get j) :
    ∃ b, s.nextRead = some b ∧ b ≠ s.lastValue ∧ s.slotActive j ∧
      delta (s.lastPos.get j ++ b.extractLsb' (4 * j.index) 2) ≠ 0 := by
  obtain ⟨_, waiting, answered⟩ := s.readThen_pollWith_registers delta cmd
  cases hb : s.nextRead with
  | none =>
    obtain ⟨_, _, henc⟩ := waiting hb
    exact absurd (congrArg (PerSlot.get · j) henc) hne
  | some b =>
    obtain ⟨_, hslot⟩ := answered b hb
    obtain ⟨_, henc⟩ := hslot j
    rw [henc] at hne
    split at hne
    · next hmoved =>
      refine ⟨b, rfl, hmoved.1, hmoved.2, fun hzero => hne ?_⟩
      rw [transCode_eq_append, phaseOf_eq_extract, hzero, addDelta_zero]
    · exact absurd rfl hne

/-- The read outstanding in `s` was answered and its byte taken into `t`: the latch holds the byte, and a tracker that
moved belongs to an active slot and holds its phase bits (40_lifecycle_ops.md R66, 41_poll_ops.md R70 to R72). -/
def State.SampledInto (s t : State) : Prop :=
  ∃ b, s.nextRead = some b ∧ t.lastValue = b ∧
    ∀ j : Slot, t.lastPos.get j ≠ s.lastPos.get j → s.slotActive j ∧ t.lastPos.get j = b.extractLsb' (4 * j.index) 2

/-- What a read transaction that moves the trackers of some active slots does to latch and trackers, answered or not. -/
theorem State.kept_or_sampledInto {s t : State} {moved : Byte → Slot → Prop} [∀ b j, Decidable (moved b j)]
    (hactive : ∀ b j, moved b j → s.slotActive j)
    (waiting : s.nextRead = none → t.lastValue = s.lastValue ∧ t.lastPos = s.lastPos)
    (answered : ∀ b, s.nextRead = some b → t.lastValue = b ∧
      ∀ j : Slot, t.lastPos.get j = if moved b j then phaseOf j b else s.lastPos.get j) :
    (t.lastValue = s.lastValue ∧ t.lastPos = s.lastPos) ∨ s.SampledInto t := by
  cases hb : s.nextRead with
  | none => exact .inl (waiting hb)
  | some b =>
    obtain ⟨hlatch, hpos⟩ := answered b hb
    refine .inr ⟨b, hb, hlatch, fun j hne => ?_⟩
    have hj := hpos j
    split at hj
    · next hmoved => exact ⟨hactive b j hmoved, hj.trans (phaseOf_eq_extract j b)⟩
    · exact absurd hj hne

/-- A decoding poll keeps latch and trackers or samples. -/
theorem State.readThen_pollWith_kept_or_sampledInto (delta : TransCode → Int) (cmd : CmdWord) (s : State) :
    let t := s.readThen cmd (pollWith delta)
    (t.lastValue = s.lastValue ∧ t.lastPos = s.lastPos) ∨ s.SampledInto t := by
  obtain ⟨_, waiting, answered⟩ := s.readThen_pollWith_registers delta cmd
  refine State.kept_or_sampledInto (moved := fun b j => b ≠ s.lastValue ∧ j.index < s.count.toNat) (fun _ _ hm => hm.2)
    (fun hn => ?_) (fun b hb => ?_)
  · obtain ⟨hlatch, hpos, _⟩ := waiting hn
    exact ⟨hlatch, hpos⟩
  · obtain ⟨hlatch, hslot⟩ := answered b hb
    exact ⟨hlatch, fun j => (hslot j).1⟩

/-- INIT keeps latch and trackers or samples. -/
theorem State.readThen_init_kept_or_sampledInto (cmd : CmdWord) (s : State) :
    let t := s.readThen cmd fun value u => ((u.setLastValue value).forActive (seedSlot value)).commit .noValue
    (t.lastValue = s.lastValue ∧ t.lastPos = s.lastPos) ∨ s.SampledInto t := by
  obtain ⟨_, _, waiting, answered⟩ := s.readThen_init_registers cmd
  exact State.kept_or_sampledInto (moved := fun _ j => j.index < s.count.toNat) (fun _ _ hm => hm) waiting answered

/-! ### What one command writes -/

/-- A command is one of the four that write no sampled register, or INIT, or a decoding poll (10_state.md R10). -/
theorem instr_query_or_sampler (i : Instr) :
    ((∃ n, i = .begin n) ∨ (∃ a, i = .isconn a) ∨ (∃ a, i = .haschg a) ∨ ∃ a, i = .key a) ∨
    (∃ a, i = .init a) ∨ (∃ a, i = .update a) ∨ ∃ a, i = .updsgl a := by
  cases i <;> simp

/-- A command that changes an accumulator is UPDATE or UPDSGL, with a byte and a code that count (10_state.md R17). -/
theorem exec_encoder {i : Instr} {s t : State} (h : exec i s = .next t) {j : Slot}
    (hne : t.encoder.get j ≠ s.encoder.get j) :
    ∃ (a : Arg) (delta : TransCode → Int) (b : Byte),
      ((i = .update a ∧ delta = deltaU) ∨ (i = .updsgl a ∧ delta = deltaS)) ∧
      s.nextRead = some b ∧ b ≠ s.lastValue ∧ s.slotActive j ∧
      delta (s.lastPos.get j ++ b.extractLsb' (4 * j.index) 2) ≠ 0 := by
  obtain hquery | ⟨a, rfl⟩ | ⟨a, rfl⟩ | ⟨a, rfl⟩ := instr_query_or_sampler i
  · obtain ⟨_, _, henc⟩ := exec_query_registers h hquery
    exact absurd (congrArg (PerSlot.get · j) henc) hne
  · obtain ⟨_, henc, _⟩ := s.readThen_init_registers (encode (.init a))
    rw [← Host.Outcome.next.inj h] at hne
    exact absurd (congrArg (PerSlot.get · j) henc) hne
  · rw [← Host.Outcome.next.inj h] at hne
    obtain ⟨b, hcounts⟩ := State.readThen_pollWith_counts hne
    exact ⟨a, deltaU, b, .inl ⟨rfl, rfl⟩, hcounts⟩
  · rw [← Host.Outcome.next.inj h] at hne
    obtain ⟨b, hcounts⟩ := State.readThen_pollWith_counts hne
    exact ⟨a, deltaS, b, .inr ⟨rfl, rfl⟩, hcounts⟩

/-- A command leaves latch and trackers alone, or it is INIT, UPDATE or UPDSGL and samples (10_state.md R12, R15). -/
theorem exec_kept_or_sampledInto {i : Instr} {s t : State} (h : exec i s = .next t) :
    (t.lastValue = s.lastValue ∧ t.lastPos = s.lastPos) ∨
    ((∃ a, i = .init a ∨ i = .update a ∨ i = .updsgl a) ∧ s.SampledInto t) := by
  obtain hquery | ⟨a, rfl⟩ | ⟨a, rfl⟩ | ⟨a, rfl⟩ := instr_query_or_sampler i
  · obtain ⟨hlatch, hpos, _⟩ := exec_query_registers h hquery
    exact .inl ⟨hlatch, hpos⟩
  · rw [← Host.Outcome.next.inj h]
    exact (s.readThen_init_kept_or_sampledInto _).imp_right fun hs => ⟨⟨a, .inl rfl⟩, hs⟩
  · rw [← Host.Outcome.next.inj h]
    exact (s.readThen_pollWith_kept_or_sampledInto deltaU _).imp_right fun hs => ⟨⟨a, .inr (.inl rfl)⟩, hs⟩
  · rw [← Host.Outcome.next.inj h]
    exact (s.readThen_pollWith_kept_or_sampledInto deltaS _).imp_right fun hs => ⟨⟨a, .inr (.inr rfl)⟩, hs⟩

/-! ### What one step writes -/

/-- The word a step runs decodes to the command of that step. -/
theorem State.commandNow_of_run {s u : State} {w : CmdWord} {i : Instr} (hn : s.nextAction = .run w u)
    (hd : decode w = .ok i) : s.commandNow = some i := by
  simp [State.commandNow, hn, hd, Except.toOption]

/-- A step takes a reset, or keeps every register, or runs the command of that step. -/
theorem step_resets_keeps_or_runs {s t : State} (h : step s = .next t) :
    (s.resetNext = true ∧ t.encoder = ⟨0, 0⟩) ∨
    (t.count = s.count ∧ t.lastValue = s.lastValue ∧ t.lastPos = s.lastPos ∧ t.encoder = s.encoder) ∨
    (∃ i rest, s.commandNow = some i ∧ exec i { s with caller := rest } = .next t) := by
  obtain ⟨a, rest, hc, rfl⟩ | ⟨rest, _, _, rfl⟩ | ⟨w, rest, _, hn, ⟨i, hd, he⟩ | ⟨_, _, rfl⟩⟩ := step_cases h
  · exact .inl ⟨by simp [State.resetNext, hc], rfl⟩
  · exact .inr (.inl ⟨rfl, rfl, rfl, rfl⟩)
  · exact .inr (.inr ⟨i, rest, State.commandNow_of_run hn hd, he⟩)
  · exact .inr (.inl ⟨rfl, rfl, rfl, rfl⟩)

/-- Settles O31: of the steps, only a reset and an answered counting poll move an accumulator. -/
theorem accumulatorChangesOnlyByCounting : Obligations.AccumulatorChangesOnlyByCounting := by
  unfold Obligations.AccumulatorChangesOnlyByCounting
  intro s t j h hne
  obtain ⟨hr, henc⟩ | ⟨_, _, _, henc⟩ | ⟨i, rest, hcmd, he⟩ := step_resets_keeps_or_runs h
  · exact .inl ⟨hr, by rw [henc]; cases j <;> rfl⟩
  · exact absurd (congrArg (PerSlot.get · j) henc) hne
  · obtain ⟨a, delta, b, hi, hb, hv, hactive, hdelta⟩ := exec_encoder he hne
    refine .inr ⟨a, b, hb, hv, hactive, ?_⟩
    obtain ⟨rfl, rfl⟩ | ⟨rfl, rfl⟩ := hi
    · exact .inl ⟨hcmd, mem_counting_of_deltaU_ne_zero _ hdelta⟩
    · exact .inr ⟨hcmd, mem_counting_of_deltaS_ne_zero _ hdelta⟩

/-- Settles O32: a step that is no reset keeps the registers or runs one command, whose writes `exec_count` and
`exec_kept_or_sampledInto` name. -/
theorem onlyTheNamedCommandsWriteTheRegisters : Obligations.OnlyTheNamedCommandsWriteTheRegisters := by
  unfold Obligations.OnlyTheNamedCommandsWriteTheRegisters
  intro s t h hnoReset
  obtain ⟨hr, _⟩ | ⟨hcount, hlatch, hpos, _⟩ | ⟨i, rest, hcmd, he⟩ := step_resets_keeps_or_runs h
  · simp [hr] at hnoReset
  · exact ⟨absurd hcount, absurd hlatch, fun j => absurd (congrArg (PerSlot.get · j) hpos)⟩
  · rw [hcmd]
    simp only [Option.some.injEq]
    refine ⟨fun hne => ?_, ?_⟩
    · obtain hcount | ⟨n, ack, rfl, hack, hcount⟩ := exec_count he
      · exact absurd hcount hne
      · have hanswered : s.nextProbe = some ack := hack
        exact ⟨n, rfl, by simp [hanswered], by rw [hcount, clampSlotCount_toNat]⟩
    · obtain ⟨hlatch, hpos⟩ | ⟨hi, b, hb, hlatch, hpos⟩ := exec_kept_or_sampledInto he
      · exact ⟨absurd hlatch, fun j => absurd (congrArg (PerSlot.get · j) hpos)⟩
      · refine ⟨fun _ => ⟨hi, hlatch ▸ hb⟩, fun j hne => ?_⟩
        obtain ⟨hactive, hphase⟩ := hpos j hne
        exact ⟨hi, hactive, b, hb, hphase⟩

end Sys2Proof.Machine

/-! # The Byte Source port: O33, O35, O43, O44 and O45 (20_memory.md R35, R38, R40) -/

namespace Sys2Proof.Machine

/-! ### Requests, results and the coming answers -/

/-- From IDLE the request goes on record behind what was there. -/
theorem State.issue_trace_of_idle {s : State} (hs : s.seq = .idle) (cmd : CmdWord) (e : Event) :
    (s.issue cmd e).trace = s.trace ++ [e] := by
  rw [State.issue_of_idle s cmd e hs]

/-- The results delivered are those of the earlier events, then those of the later ones. -/
@[simp] theorem resultsOf_append (past later : List Event) :
    resultsOf (past ++ later) = resultsOf past ++ resultsOf later := by
  induction past with
  | nil => rfl
  | cons e past ih => cases e <;> simp [resultsOf, ih]

/-- Sending a request delivers no result. -/
theorem State.resultsOf_issue (s : State) (cmd : CmdWord) {e : Event} (he : e.isRequest = true) :
    resultsOf (s.issue cmd e).trace = resultsOf s.trace := by
  cases hs : s.seq with
  | idle =>
    rw [State.issue_trace_of_idle hs, resultsOf_append]
    cases e <;> simp [Event.isRequest, resultsOf] at he ⊢
  | wait latched => rw [State.issue_of_wait s cmd latched e hs]

/-- A look for a read uses up the next listed answer. -/
@[simp] theorem State.advanceRead_reads (s : State) : s.advanceRead.reads = s.reads.tail := by
  unfold State.advanceRead
  split <;> simp_all

/-- A look for a probe uses up the next listed answer. -/
@[simp] theorem State.advanceProbe_probes (s : State) : s.advanceProbe.probes = s.probes.tail := by
  unfold State.advanceProbe
  split <;> simp_all

/-- Settles O33: the events of `exec_ports` from IDLE hold the one request of the command's row in R35. -/
theorem commandMakesItsFixedTransactions : Obligations.CommandMakesItsFixedTransactions := by
  unfold Obligations.CommandMakesItsFixedTransactions
  intro i s t hs h
  obtain ⟨_, _, ⟨hi, r, _, ht⟩ | ⟨hi, hread⟩ | ⟨hi, hprobe⟩⟩ := exec_ports h
  · exact ⟨[.done r], ht, by rw [hi]; rfl⟩
  · obtain ⟨b, r, _, _, ht⟩ | ⟨_, rfl⟩ := hread
    · exact ⟨[.readRequest s.address, .readAnswer b, .done r],
        by simp [ht, State.issue_trace_of_idle hs], by rw [hi]; rfl⟩
    · exact ⟨[.readRequest s.address], by simp [State.issue_trace_of_idle hs], by rw [hi]; rfl⟩
  · obtain ⟨ack, r, _, _, ht⟩ | ⟨_, rfl⟩ := hprobe
    · exact ⟨[.probeRequest s.address, .probeAnswer ack, .done r],
        by simp [ht, State.issue_trace_of_idle hs], by rw [hi]; rfl⟩
    · exact ⟨[.probeRequest s.address], by simp [State.issue_trace_of_idle hs], by rw [hi]; rfl⟩

/-! ### A late probe answer -/

/-- Settles O43: in WAIT the answered probe goes straight to the commit, `State.probeThen_of_wait`. -/
theorem lateProbeAnswerCommits : Obligations.LateProbeAnswerCommits := by
  unfold Obligations.LateProbeAnswerCommits
  intro a s ack hack
  refine ⟨fun hs => ?_, fun hs => ?_⟩
  · rw [exec_begin, State.probeThen_of_wait s _ _ _ ack hs hack]
    simp [State.setCount, State.commit, clampSlotCount]
  · rw [exec_isconn, State.probeThen_of_wait s _ _ _ ack hs hack]
    simp [State.commit]

/-! ### A late sample -/

/-- INIT's loop, with the trackers written out. -/
theorem forActive_seedSlot_eq (value : Byte) (s : State) :
    s.forActive (seedSlot value) = { s with
      lastPos :=
        { slot0 := if 0 < s.count.toNat then value.extractLsb' 0 2 else s.lastPos.slot0
          slot1 := if 1 < s.count.toNat then value.extractLsb' 4 2 else s.lastPos.slot1 } } := by
  obtain ⟨p, hloop, hp⟩ := forActive_seedSlot value s
  rw [hloop]
  congr 1
  refine PerSlot.ext_get fun i => ?_
  rw [hp, phaseOf_eq_extract]
  cases i <;> rfl

/-- Settles O44: in WAIT the answered read goes straight to the commit, `State.readThen_of_wait`. -/
theorem lateSampleCommitsInitAndHaschg : Obligations.LateSampleCommitsInitAndHaschg := by
  unfold Obligations.LateSampleCommitsInitAndHaschg
  intro a s b hb
  refine ⟨fun hs => ?_, fun hs => ?_⟩
  · rw [exec_init, State.readThen_of_wait s _ _ _ b hs hb, forActive_seedSlot_eq]
    simp [State.setLastValue, State.commit]
  · rw [exec_haschg, State.readThen_of_wait s _ _ _ b hs hb]
    simp [State.commit, sampleDiffers]

/-- What a poll adds to an accumulator, by the class of the transition code (30_encoding.md R50 to R52): 1 on a forward code,
`double` on a double step, `reverse` on a reverse code, nothing on the same phase. -/
def CountsBy (delta : TransCode → Int) (double reverse : Acc) : Prop :=
  ∀ (e : Acc) (code : TransCode),
    (code ∈ [0b0001#4, 0b0111#4, 0b1110#4, 0b1000#4] → addDelta e (delta code) = e + 1) ∧
    (code ∈ [0b0011#4, 0b0110#4, 0b1001#4, 0b1100#4] → addDelta e (delta code) = e + double) ∧
    (code ∈ [0b0010#4, 0b0100#4, 0b1101#4, 0b1011#4] → addDelta e (delta code) = e + reverse) ∧
    (code ∈ [0b0000#4, 0b0101#4, 0b1010#4, 0b1111#4] → addDelta e (delta code) = e)

/-- A table that takes these values on the four classes counts by them. -/
theorem countsBy_of_classes {delta : TransCode → Int} {double reverse : Acc} {d r : Int}
    (hdouble : BitVec.ofInt Config.encWidth d = double) (hreverse : BitVec.ofInt Config.encWidth r = reverse)
    (h : ∀ code : TransCode,
      (code ∈ [0b0001#4, 0b0111#4, 0b1110#4, 0b1000#4] → delta code = 1) ∧
      (code ∈ [0b0011#4, 0b0110#4, 0b1001#4, 0b1100#4] → delta code = d) ∧
      (code ∈ [0b0010#4, 0b0100#4, 0b1101#4, 0b1011#4] → delta code = r) ∧
      (code ∈ [0b0000#4, 0b0101#4, 0b1010#4, 0b1111#4] → delta code = 0)) :
    CountsBy delta double reverse := by
  intro e code
  obtain ⟨hfwd, hdbl, hrev, hsame⟩ := h code
  exact ⟨fun hc => by rw [hfwd hc]; rfl, fun hc => by rw [hdbl hc, addDelta, hdouble],
    fun hc => by rw [hrev hc, addDelta, hreverse],
    fun hc => by rw [hsame hc, addDelta_zero]⟩

/-- UPDATE ignores a double step and takes a reverse step back (30_encoding.md R51). -/
theorem deltaU_countsBy : CountsBy deltaU 0 (-1) :=
  countsBy_of_classes (d := 0) (r := -1) (by decide) (by decide) (by decide)

/-- UPDSGL counts 2 for a double step and 3 for a reverse step (30_encoding.md R52). -/
theorem deltaS_countsBy : CountsBy deltaS 2 3 :=
  countsBy_of_classes (d := 2) (r := 3) (by decide) (by decide) (by decide)

/-- A poll latches the byte, delivers whether it was another one, and else writes trackers and accumulators only. -/
theorem pollWith_frame (delta : TransCode → Int) (b : Byte) (u : State) :
    pollWith delta b u = { u with
      seq := .idle
      lastValue := b
      lastPos := (pollWith delta b u).lastPos
      encoder := (pollWith delta b u).encoder
      trace := u.trace ++ [.done (.bit (b != u.lastValue))] } := by
  by_cases hv : b = u.lastValue
  · rw [pollWith_of_eq delta b u hv]
    simp [hv, State.commit]
  · obtain ⟨p, e, hloop, _⟩ := forActive_decodeSlot delta b u
    simp [pollWith_of_ne delta b u hv, hloop, hv, State.setLastValue, State.commit]

/-- A poll that commits from WAIT adds answer and result to the record, and no second request. -/
theorem State.readThen_pollWith_frame_of_wait {s : State} {latched : CmdWord} {b : Byte} (hs : s.seq = .wait latched)
    (hb : s.nextRead = some b) (delta : TransCode → Int) (cmd : CmdWord) :
    s.readThen cmd (pollWith delta) = { s.advanceRead with
      seq := .idle
      lastValue := b
      lastPos := (s.readThen cmd (pollWith delta)).lastPos
      encoder := (s.readThen cmd (pollWith delta)).encoder
      trace := s.trace ++ [.readAnswer b, .done (.bit (b != s.lastValue))] } := by
  rw [State.readThen_of_wait s cmd latched _ b hs hb]
  refine (pollWith_frame delta b _).trans ?_
  simp

/-- A poll with an equal byte keeps trackers and accumulators (41_poll_ops.md R74). -/
theorem State.readThen_pollWith_of_eq {s : State} {b : Byte} (hb : s.nextRead = some b) (hv : b = s.lastValue)
    (delta : TransCode → Int) (cmd : CmdWord) :
    (s.readThen cmd (pollWith delta)).lastPos = s.lastPos ∧ (s.readThen cmd (pollWith delta)).encoder = s.encoder := by
  obtain ⟨_, _, answered⟩ := s.readThen_pollWith_registers delta cmd
  obtain ⟨_, hslot⟩ := answered b hb
  simp only [hv, ne_eq, not_true_eq_false, false_and, if_false] at hslot
  exact ⟨PerSlot.ext_get fun i => (hslot i).1, PerSlot.ext_get fun i => (hslot i).2⟩

/-- A poll with another byte moves every active slot by its own phase and code, and no other slot (41_poll_ops.md R72). -/
theorem State.readThen_pollWith_of_ne {s : State} {b : Byte} (hb : s.nextRead = some b) (hv : b ≠ s.lastValue)
    (delta : TransCode → Int) (cmd : CmdWord) (i : Slot) :
    let t := s.readThen cmd (pollWith delta)
    let current := b.extractLsb' (4 * i.index) 2
    (i.index < s.count.toNat → t.lastPos.get i = current ∧
      t.encoder.get i = addDelta (s.encoder.get i) (delta (s.lastPos.get i ++ current))) ∧
    (s.count.toNat ≤ i.index → t.lastPos.get i = s.lastPos.get i ∧ t.encoder.get i = s.encoder.get i) := by
  obtain ⟨_, _, answered⟩ := s.readThen_pollWith_registers delta cmd
  obtain ⟨_, hslot⟩ := answered b hb
  obtain ⟨hpos, henc⟩ := hslot i
  rw [transCode_eq_append, phaseOf_eq_extract] at henc
  rw [phaseOf_eq_extract] at hpos
  refine ⟨fun hactive => ?_, fun hinactive => ?_⟩
  · rw [if_pos ⟨hv, hactive⟩] at hpos henc
    exact ⟨hpos, henc⟩
  · rw [if_neg fun hc => Nat.not_lt.mpr hinactive hc.2] at hpos henc
    exact ⟨hpos, henc⟩

/-- Settles O45: both polls are one read decoded by a table, and the table counts by the class of the code. -/
theorem lateSampleCommitsThePolls : Obligations.LateSampleCommitsThePolls := by
  unfold Obligations.LateSampleCommitsThePolls
  intro f double reverse hf a s b hs hb
  obtain ⟨delta, hexec, hcounts⟩ : ∃ delta, exec (f a) s = .next (s.readThen (encode (f a)) (pollWith delta)) ∧
      CountsBy delta double reverse := by
    obtain ⟨rfl, rfl, rfl⟩ | ⟨rfl, rfl, rfl⟩ := hf
    · exact ⟨deltaU, exec_update a s, deltaU_countsBy⟩
    · exact ⟨deltaS, exec_updsgl a s, deltaS_countsBy⟩
  refine ⟨_, hexec, State.readThen_pollWith_frame_of_wait hs hb delta _,
    fun hv => State.readThen_pollWith_of_eq hb hv delta _, fun hv i => ?_⟩
  obtain ⟨hactive, hinactive⟩ := State.readThen_pollWith_of_ne hb hv delta (encode (f a)) i
  refine ⟨fun hi => ?_, hinactive⟩
  obtain ⟨hpos, henc⟩ := hactive hi
  rw [henc]
  exact ⟨hpos, hcounts _ _⟩

/-! ### A stalled Byte Source -/

/-- A decoded command has the fields of its word. -/
theorem fields_of_decode {w : CmdWord} {i : Instr} (h : decode w = .ok i) :
    opcodeOf i = opField w ∧ argOf i = argField w := by
  unfold decode at h
  split at h <;> cases h
  all_goals exact ⟨BitVec.eq_of_toNat_eq (Eq.symm ‹_›), rfl⟩

/-- A decoded command is latched as the word presented. -/
theorem encode_of_decode {w : CmdWord} {i : Instr} (h : decode w = .ok i) : encode i = w := by
  obtain ⟨hop, harg⟩ := fields_of_decode h
  rw [encode, hop, harg, opField_append_argField]

/-- The Byte Source gives no answer at its next `n` looks, of either kind (20_memory.md R40). -/
def State.Silent (s : State) (n : Nat) : Prop :=
  List.replicate n none <+: s.reads ∧ List.replicate n none <+: s.probes

/-- A shorter silence is part of a longer one. -/
theorem replicate_none_of_succ {α : Type} {n : Nat} {l : List (Option α)}
    (h : List.replicate (n + 1) none <+: l) : List.replicate n none <+: l := by
  obtain ⟨later, rfl⟩ := h
  exact ⟨none :: later, by simp [List.replicate_succ']⟩

/-- One look less of silence is left after one look. -/
theorem replicate_none_tail {α : Type} {n : Nat} {l : List (Option α)}
    (h : List.replicate (n + 1) none <+: l) : List.replicate n none <+: l.tail := by
  obtain ⟨later, rfl⟩ := h
  exact ⟨later, rfl⟩

/-- In a silence neither transaction is answered. -/
theorem State.Silent.unanswered {s : State} {n : Nat} (h : s.Silent (n + 1)) :
    s.nextRead = none ∧ s.nextProbe = none := by
  obtain ⟨⟨reads, hr⟩, ⟨probes, hp⟩⟩ := h
  simp [State.nextRead, State.nextProbe, ← hr, ← hp, List.replicate_succ]

/-- A command with a transaction that is not answered has sent its request and looked once. -/
theorem exec_unanswered {i : Instr} {s t : State} (h : exec i s = .next t) (hi : transactionOf i ≠ .none)
    (hread : s.nextRead = none) (hprobe : s.nextProbe = none) :
    ∃ e, e.isRequest = true ∧
      (t = (s.issue (encode i) e).advanceRead ∨ t = (s.issue (encode i) e).advanceProbe) := by
  obtain ⟨_, _, ⟨hn, _⟩ | ⟨_, ⟨b, _, hb, _⟩ | ⟨_, ht⟩⟩ | ⟨_, ⟨ack, _, hack, _⟩ | ⟨_, ht⟩⟩⟩ := exec_ports h
  · exact absurd hn hi
  · simp [hread] at hb
  · exact ⟨_, rfl, .inl ht⟩
  · simp [hprobe] at hack
  · exact ⟨_, rfl, .inr ht⟩

/-- The block waits in `t` with the word `w` latched, and since `s` it has written nothing the ports show, delivered no
result and accepted no word; no reset is to come (20_memory.md R38, R40). -/
structure State.StallsIn (s : State) (w : CmdWord) (t : State) : Prop where
  seq : t.seq = .wait w
  observed : t.observed = s.observed
  results : resultsOf t.trace = resultsOf s.trace
  presented : t.caller.filter CallerAct.isPresent = s.caller.filter CallerAct.isPresent
  noReset : t.caller.all (fun c => !c.isReset) = true

/-- A stall goes on from where it stands. -/
theorem State.StallsIn.trans {s t u : State} {w : CmdWord} (hst : s.StallsIn w t) (htu : t.StallsIn w u) :
    s.StallsIn w u :=
  ⟨htu.seq, htu.observed.trans hst.observed, htu.results.trans hst.results, htu.presented.trans hst.presented,
    htu.noReset⟩

/-- Every command answers a next state (60_exceptions.md R88). -/
theorem exec_answers (i : Instr) (s : State) : ∃ t, exec i s = .next t := by
  cases i <;> exact ⟨_, rfl⟩

/-- In a silence a command with a transaction, just accepted or waiting, stalls. -/
theorem exec_stalls {i : Instr} {s : State} {n : Nat} (hi : transactionOf i ≠ .none)
    (hs : s.seq = .idle ∨ s.seq = .wait (encode i)) (hreset : s.caller.all (fun c => !c.isReset) = true)
    (hsilent : s.Silent (n + 1)) : ∃ t, exec i s = .next t ∧ s.StallsIn (encode i) t ∧ t.Silent n := by
  obtain ⟨hread, hprobe⟩ := hsilent.unanswered
  obtain ⟨hreads, hprobes⟩ := hsilent
  obtain ⟨t, h⟩ := exec_answers i s
  obtain ⟨e, he, ht⟩ := exec_unanswered h hi hread hprobe
  have hseq : (s.issue (encode i) e).seq = .wait (encode i) := by
    obtain hq | hq := hs
    · rw [State.issue_of_idle _ _ _ hq]
    · rw [State.issue_of_wait _ _ _ _ hq, hq]
  have hresults := s.resultsOf_issue (encode i) he
  refine ⟨t, h, ?_⟩
  obtain rfl | rfl := ht
  · exact ⟨⟨by simpa using hseq, by simp [State.observed], by simpa using hresults, by simp, by simpa using hreset⟩,
      by simpa using replicate_none_tail hreads, by simpa using replicate_none_of_succ hprobes⟩
  · exact ⟨⟨by simpa using hseq, by simp [State.observed], by simpa using hresults, by simp, by simpa using hreset⟩,
      by simpa using replicate_none_of_succ hreads, by simpa using replicate_none_tail hprobes⟩

/-- A step that runs a word that decodes runs its command. -/
theorem step_of_run {s u : State} {w : CmdWord} {i : Instr} (hn : s.nextAction = .run w u) (hd : decode w = .ok i) :
    step s = exec i u := by
  simp [step, hn, hd]

/-- In WAIT without a reset to come the latched word goes on, and at most a look at the observation port is used up. -/
theorem State.nextAction_of_wait {s : State} {w : CmdWord} (hs : s.seq = .wait w)
    (hreset : s.caller.all (fun c => !c.isReset) = true) :
    ∃ rest, s.nextAction = .run w { s with caller := rest } ∧ (s.caller = rest ∨ s.caller = .observe :: rest) := by
  obtain ⟨a, rest, hc, _⟩ | ⟨_, _, hq, _⟩ | ⟨_, hq, _⟩ | ⟨hq, _⟩ | ⟨v, rest, hq, hc, hn⟩ := s.nextAction_cases
  · simp [hc, CallerAct.isReset] at hreset
  · simp [hs] at hq
  · simp [hs] at hq
  · simp [hs] at hq
  · obtain rfl : w = v := by simpa [hs] using hq
    exact ⟨rest, hn, hc.symm.imp_left And.left⟩

/-- In a silence a waiting block stalls for one step more. -/
theorem step_stalls {s : State} {w : CmdWord} {i : Instr} {n : Nat} (hd : decode w = .ok i)
    (hi : transactionOf i ≠ .none) (hs : s.seq = .wait w) (hreset : s.caller.all (fun c => !c.isReset) = true)
    (hsilent : s.Silent (n + 1)) : ∃ t, step s = .next t ∧ s.StallsIn w t ∧ t.Silent n := by
  obtain rfl := encode_of_decode hd
  obtain ⟨rest, hn, hc⟩ := State.nextAction_of_wait hs hreset
  have hpresented : rest.filter CallerAct.isPresent = s.caller.filter CallerAct.isPresent := by
    obtain hc | hc := hc <;> simp [hc, CallerAct.isPresent]
  have hrest : rest.all (fun c => !c.isReset) = true := by
    obtain hc | hc := hc <;> simpa [hc, CallerAct.isReset] using hreset
  obtain ⟨t, he, hstall, hleft⟩ := exec_stalls (s := { s with caller := rest }) hi (.inr hs) hrest hsilent
  exact ⟨t, (step_of_run hn hd).trans he,
    ⟨hstall.seq, hstall.observed, hstall.results, hstall.presented.trans hpresented, hstall.noReset⟩, hleft⟩

/-- A waiting block stalls for as many steps as the silence lasts (20_memory.md R40). -/
theorem runSteps_stalls {w : CmdWord} {i : Instr} (hd : decode w = .ok i) (hi : transactionOf i ≠ .none) (n : Nat) :
    ∀ s : State, s.seq = .wait w → s.caller.all (fun c => !c.isReset) = true → s.Silent n →
      ∃ t, runSteps n s = .next t ∧ s.StallsIn w t := by
  induction n with
  | zero => exact fun s hs hreset _ => ⟨s, runSteps_zero s, hs, rfl, rfl, rfl, hreset⟩
  | succ n ih =>
    intro s hs hreset hsilent
    obtain ⟨t, hstep, hst, hleft⟩ := step_stalls hd hi hs hreset hsilent
    obtain ⟨u, hrun, htu⟩ := ih t hst.seq hst.noReset hleft
    exact ⟨u, (runSteps_succ n hstep).trans hrun, hst.trans htu⟩

/-- A step with reset as the caller's next action is that reset, whatever `seq` is (70_reset_and_hazards.md R105). -/
theorem step_of_reset {s : State} {a : BusAddr} {rest : List CallerAct} (hc : s.caller = .reset a :: rest) :
    step s = .next (s.applyReset a rest) := by
  have hn : s.nextAction = .settle (s.applyReset a rest) := by simp [State.nextAction, hc]
  simp [step, hn]

/-- Settles O35: the accepting step enters the stall, `exec_stalls`, the other `n` steps keep it, `runSteps_stalls`, and
reset leaves it, `step_of_reset`. -/
theorem stalledBusBlocksUntilReset : Obligations.StalledBusBlocksUntilReset := by
  unfold Obligations.StalledBusBlocksUntilReset
  intro n s w i rest reads probes hs hc hd hi hreset hreads hprobes
  obtain rfl := encode_of_decode hd
  have hn : s.nextAction = .run (encode i) { s with caller := rest } := by simp [State.nextAction, hs, hc]
  have hsilent : State.Silent { s with caller := rest } (n + 1) := ⟨⟨reads, hreads.symm⟩, ⟨probes, hprobes.symm⟩⟩
  obtain ⟨t, he, hst, hleft⟩ := exec_stalls (s := { s with caller := rest }) hi (.inl hs) hreset hsilent
  obtain ⟨u, hrun, htu⟩ := runSteps_stalls hd hi n t hst.seq hst.noReset hleft
  have hsu := hst.trans htu
  refine ⟨u, ?_, hsu.seq, hsu.observed, hsu.results, hsu.presented, fun a later => ?_⟩
  · exact (runSteps_succ n ((step_of_run hn hd).trans he)).trans hrun
  · exact ⟨_, step_of_reset rfl, rfl, rfl⟩

end Sys2Proof.Machine

/-! # KEY answers from the latch: O22 (42_button_ops.md R85) -/

namespace Sys2Proof.Machine

/-- Committing on an idle block only delivers the result (20_memory.md R38). -/
theorem State.commit_of_idle {s : State} (hs : s.seq = .idle) (r : Result) :
    s.commit r = { s with trace := s.trace ++ [.done r] } := by
  cases s
  cases hs
  rfl

/-- KEY on an idle block delivers its result and changes nothing else. -/
theorem exec_key_of_idle {s : State} (hs : s.seq = .idle) (a : Arg) :
    exec (.key a) s = .next { s with trace := s.trace ++ [.done (.bit (keyResult a s.lastValue))] } := by
  rw [exec_key, State.commit_of_idle hs]

/-- An operand that names a slot is answered by the slot's button bit, active low (30_encoding.md R48). -/
theorem keyResult_of_slot {a : Arg} {i : Slot} (ha : keySlot a = some i) (value : Byte) :
    keyResult a value = decide (value &&& buttonMask i = 0) := by
  rw [keyResult, ha]
  exact beq_eq_decide _ _

/-- Settles O22: operands 0 and 1 name slots 0 and 1, whose button masks are 0x04 and 0x40. -/
theorem keyReadsTheLatchedButton : Obligations.KeyReadsTheLatchedButton := by
  unfold Obligations.KeyReadsTheLatchedButton
  intro s hs
  have hslot0 : keySlot 0 = some .slot0 := rfl
  have hslot1 : keySlot 1 = some .slot1 := rfl
  constructor
  · rw [exec_key_of_idle hs, keyResult_of_slot hslot0, buttonMask]
  · rw [exec_key_of_idle hs, keyResult_of_slot hslot1, buttonMask]

end Sys2Proof.Machine

/-! # Probe query and baseline sample from IDLE: O10 and O11 (40_lifecycle_ops.md R65, R66) -/

namespace Sys2Proof.Machine

/-- Settles O10: from IDLE the answered probe goes straight to the commit, `State.probeThen_of_idle`. -/
theorem isconnReturnsAckAndWritesNothing : Obligations.IsconnReturnsAckAndWritesNothing := by
  unfold Obligations.IsconnReturnsAckAndWritesNothing
  intro a s ack hs hack
  rw [exec_isconn, State.probeThen_of_idle s _ _ ack hs hack]
  simp [State.commit, hs]

/-- Settles O11: from IDLE the answered read goes straight to the commit, `State.readThen_of_idle`; INIT's loop seeds the
trackers, `forActive_seedSlot_eq`. -/
theorem initTakesTheBaselineSample : Obligations.InitTakesTheBaselineSample := by
  unfold Obligations.InitTakesTheBaselineSample
  intro a s b hs hb
  rw [exec_init, State.readThen_of_idle s _ _ b hs hb, forActive_seedSlot_eq]
  simp [State.setLastValue, State.commit, hs]

end Sys2Proof.Machine

/-! # The polls from IDLE: O12, O13 and O14 (41_poll_ops.md R69, R70, R71) -/

namespace Sys2Proof.Machine

/-- Settles O12: from IDLE the answered read goes straight to the commit, `State.readThen_of_idle`, and HASCHG commits the
comparison alone. -/
theorem haschgComparesAndStoresNothing : Obligations.HaschgComparesAndStoresNothing := by
  unfold Obligations.HaschgComparesAndStoresNothing
  intro a s b hs hb
  rw [exec_haschg, State.readThen_of_idle s _ _ b hs hb]
  simp [State.commit, sampleDiffers, hs]

/-- A poll answered at once from IDLE adds request, answer and result to the record, latches the byte, and else writes
trackers and accumulators only. -/
theorem State.readThen_pollWith_frame_of_idle {s : State} {b : Byte} (hs : s.seq = .idle) (hb : s.nextRead = some b)
    (delta : TransCode → Int) (cmd : CmdWord) :
    s.readThen cmd (pollWith delta) = { s.advanceRead with
      lastValue := b
      lastPos := (s.readThen cmd (pollWith delta)).lastPos
      encoder := (s.readThen cmd (pollWith delta)).encoder
      trace := s.trace ++ [.readRequest s.address, .readAnswer b, .done (.bit (b != s.lastValue))] } := by
  rw [State.readThen_of_idle s cmd _ b hs hb]
  refine (pollWith_frame delta b _).trans ?_
  simp [hs]

/-- UPDATE counts forward and reverse codes only (30_encoding.md R51). -/
theorem addDelta_deltaU_of_not_counting (e : Acc) {code : TransCode}
    (hforward : code ∉ [0b0001#4, 0b0111#4, 0b1110#4, 0b1000#4])
    (hreverse : code ∉ [0b0010#4, 0b0100#4, 0b1101#4, 0b1011#4]) : addDelta e (deltaU code) = e := by
  have hzero : deltaU code = 0 := by
    by_contra hne
    exact (List.mem_append.mp (mem_counting_of_deltaU_ne_zero code hne)).elim hforward hreverse
  rw [hzero, addDelta_zero]

/-- UPDSGL counts forward, double-step and reverse codes only (30_encoding.md R52). -/
theorem addDelta_deltaS_of_not_counting (e : Acc) {code : TransCode}
    (hforward : code ∉ [0b0001#4, 0b0111#4, 0b1110#4, 0b1000#4])
    (hdouble : code ∉ [0b0011#4, 0b0110#4, 0b1001#4, 0b1100#4])
    (hreverse : code ∉ [0b0010#4, 0b0100#4, 0b1101#4, 0b1011#4]) : addDelta e (deltaS code) = e := by
  have hzero : deltaS code = 0 := by
    by_contra hne
    exact (List.mem_append.mp (mem_counting_of_deltaS_ne_zero code hne)).elim hforward fun hother =>
      (List.mem_append.mp hother).elim hdouble hreverse
  rw [hzero, addDelta_zero]

/-- Settles O13: UPDATE is one read decoded by `deltaU`, `State.readThen_pollWith_of_ne`, which counts 1 forward and 1 back,
`deltaU_countsBy`, and nothing on any other code, `addDelta_deltaU_of_not_counting`. -/
theorem updateDecodesTheSample : Obligations.UpdateDecodesTheSample := by
  unfold Obligations.UpdateDecodesTheSample
  intro a s b hs hb
  refine ⟨_, exec_update a s, State.readThen_pollWith_frame_of_idle hs hb deltaU _,
    fun hv => State.readThen_pollWith_of_eq hb hv deltaU _, fun hv i => ?_⟩
  obtain ⟨hactive, hinactive⟩ := State.readThen_pollWith_of_ne hb hv deltaU (encode (.update a)) i
  refine ⟨fun hi => ?_, hinactive⟩
  obtain ⟨hpos, henc⟩ := hactive hi
  obtain ⟨hforward, _, hreverse, _⟩ :=
    deltaU_countsBy (s.encoder.get i) (s.lastPos.get i ++ b.extractLsb' (4 * i.index) 2)
  rw [henc, BitVec.sub_eq_add_neg]
  exact ⟨hpos, hforward, hreverse, addDelta_deltaU_of_not_counting _⟩

/-- Settles O14: UPDSGL is one read decoded by `deltaS`, `State.readThen_pollWith_of_ne`, which counts 1, 2 or 3 by the class of
the code, `deltaS_countsBy`, and nothing on any other code, `addDelta_deltaS_of_not_counting`. -/
theorem updsglDecodesTheSample : Obligations.UpdsglDecodesTheSample := by
  unfold Obligations.UpdsglDecodesTheSample
  intro a s b hs hb
  refine ⟨_, exec_updsgl a s, State.readThen_pollWith_frame_of_idle hs hb deltaS _,
    fun hv => State.readThen_pollWith_of_eq hb hv deltaS _, fun hv i => ?_⟩
  obtain ⟨hactive, hinactive⟩ := State.readThen_pollWith_of_ne hb hv deltaS (encode (.updsgl a)) i
  refine ⟨fun hi => ?_, hinactive⟩
  obtain ⟨hpos, henc⟩ := hactive hi
  obtain ⟨hforward, hdouble, hreverse, _⟩ :=
    deltaS_countsBy (s.encoder.get i) (s.lastPos.get i ++ b.extractLsb' (4 * i.index) 2)
  rw [henc]
  exact ⟨hpos, hforward, hdouble, hreverse, addDelta_deltaS_of_not_counting _⟩

end Sys2Proof.Machine

/-! # The address: O8 (70_reset_and_hazards.md R106) -/

namespace Sys2Proof.Machine

/-- Settles O8: a reset takes its address, `step_of_reset`; any other step writes no address, since a command leaves it alone,
`exec_ports`. -/
theorem addressChangesOnlyAtReset : Obligations.AddressChangesOnlyAtReset := by
  unfold Obligations.AddressChangesOnlyAtReset
  intro s t h
  refine ⟨fun a rest hc => ?_, fun hnoReset => ?_⟩
  · rw [← Host.Outcome.next.inj ((step_of_reset hc).symm.trans h), State.applyReset_address]
  · obtain ⟨a, rest, hc, _⟩ | ⟨_, _, _, rfl⟩ | ⟨w, rest, _, _, ⟨i, _, he⟩ | ⟨_, _, rfl⟩⟩ := step_cases h
    · simp [State.resetNext, hc] at hnoReset
    · rfl
    · exact (exec_ports he).1
    · rfl

end Sys2Proof.Machine

/-! # Progress: O36 (70_reset_and_hazards.md R123)

A look that is not answered only sends the request, once, and uses up one listed answer. So the waiting block differs from the
block whose answer is there at once in nothing but the request already sent and what is still to come from outside, and neither
makes a difference to the commit. -/

namespace Sys2Proof.Machine

/-! ### The state without what is to come from outside -/

/-- The state with nothing left to come from the caller and the Byte Source: the block, its record and the free counter. -/
def State.inside (s : State) : State := { s with caller := [], reads := [], probes := [] }

/-- Two states with the same inside differ in what is to come from outside only. -/
theorem State.eq_of_inside_eq {t u : State} (h : t.inside = u.inside) :
    t = { u with caller := t.caller, reads := t.reads, probes := t.probes } :=
  congrArg (fun q : State => { q with caller := t.caller, reads := t.reads, probes := t.probes }) h

/-- A request goes out whatever is to come. -/
theorem State.issue_inside (s : State) (cmd : CmdWord) (e : Event) : (s.issue cmd e).inside = s.inside.issue cmd e := by
  cases hs : s.seq with
  | idle =>
    rw [State.issue_of_idle s cmd e hs, State.issue_of_idle s.inside cmd e hs]
    rfl
  | wait latched => rw [State.issue_of_wait s cmd latched e hs, State.issue_of_wait s.inside cmd latched e hs]

/-- After its request a command, just accepted or waiting, is in WAIT. -/
theorem State.issue_seq {s : State} {cmd : CmdWord} (hs : s.seq = .idle ∨ s.seq = .wait cmd) (e : Event) :
    (s.issue cmd e).seq = .wait cmd := by
  obtain hs | hs := hs
  · rw [State.issue_of_idle s cmd e hs]
  · rw [State.issue_of_wait s cmd cmd e hs, hs]

/-- The request goes out once (20_memory.md R39). -/
theorem State.issue_issue (s : State) (cmd : CmdWord) (e e' : Event) :
    (s.issue cmd e).issue cmd e' = s.issue cmd e := by
  cases hs : s.seq with
  | idle =>
    rw [State.issue_of_idle s cmd e hs]
    exact State.issue_of_wait _ cmd cmd e' rfl
  | wait latched => rw [State.issue_of_wait s cmd latched e hs, State.issue_of_wait s cmd latched e' hs]

/-- A continuation for which what is to come from outside makes no difference. -/
def CommutesWithInside {α : Type} (k : α → State → State) : Prop :=
  ∀ v u, (k v u).inside = k v u.inside

/-- What is to come makes no difference to the slot loop if it makes none to the body. -/
theorem State.forActive_inside {body : Slot → State → State} (h : CommutesWithInside body) (s : State) :
    (s.forActive body).inside = s.inside.forActive body :=
  (List.foldl_hom State.inside fun u j => (h j u).symm).symm

/-- What is to come makes no difference to a poll once its byte is there. -/
theorem pollWith_commutesWithInside (delta : TransCode → Int) : CommutesWithInside (pollWith delta) := by
  intro b u
  by_cases hv : b = u.lastValue
  · rw [pollWith_of_eq delta b u hv, pollWith_of_eq delta b u.inside hv]
    rfl
  · rw [pollWith_of_ne delta b u hv, pollWith_of_ne delta b u.inside hv,
      ← State.forActive_inside (body := decodeSlot delta b) fun _ _ => rfl]
    rfl

/-- Nor to INIT. -/
theorem init_commutesWithInside : CommutesWithInside fun value (u : State) =>
    ((u.setLastValue value).forActive (seedSlot value)).commit .noValue := by
  intro b u
  have hloop := State.forActive_inside (body := seedSlot b) (fun _ _ => rfl) (u.setLastValue b)
  exact congrArg (State.commit · .noValue) hloop

/-! ### The transaction of a command, answered or not -/

/-- A command has no transaction, or is one read or one probe, with a continuation to which what is to come makes no difference. -/
theorem exec_transaction (i : Instr) :
    transactionOf i = .none ∨
    (transactionOf i = .read ∧ ∃ k, (∀ s, exec i s = .next (s.readThen (encode i) k)) ∧ CommutesWithInside k) ∨
    (transactionOf i = .probe ∧ ∃ k, (∀ s, exec i s = .next (s.probeThen (encode i) k)) ∧ CommutesWithInside k) := by
  cases i with
  | begin n => exact .inr (.inr ⟨rfl, _, exec_begin n, fun _ _ => rfl⟩)
  | isconn a => exact .inr (.inr ⟨rfl, _, exec_isconn a, fun _ _ => rfl⟩)
  | init a => exact .inr (.inl ⟨rfl, _, exec_init a, init_commutesWithInside⟩)
  | haschg a => exact .inr (.inl ⟨rfl, _, exec_haschg a, fun _ _ => rfl⟩)
  | update a => exact .inr (.inl ⟨rfl, _, exec_update a, pollWith_commutesWithInside deltaU⟩)
  | updsgl a => exact .inr (.inl ⟨rfl, _, exec_updsgl a, pollWith_commutesWithInside deltaS⟩)
  | key slot => exact .inl rfl

/-- The command `i` has a transaction, which the Byte Source leaves unanswered for `n` looks and answers then, a read with `b`
and a probe with `ack` (20_memory.md R31, R32, R40). -/
def State.AnswersAfter (s : State) (i : Instr) (b : Byte) (ack : Bool) (n : Nat) : Prop :=
  (transactionOf i = .read ∧ ∃ later, s.reads = List.replicate n none ++ some b :: later) ∨
  (transactionOf i = .probe ∧ ∃ later, s.probes = List.replicate n none ++ some ack :: later)

/-- What is to come for a read. -/
theorem State.AnswersAfter.reads {s : State} {i : Instr} {b : Byte} {ack : Bool} {n : Nat} (hs : s.AnswersAfter i b ack n)
    (hi : transactionOf i = .read) : ∃ later, s.reads = List.replicate n none ++ some b :: later := by
  simpa [State.AnswersAfter, hi] using hs

/-- What is to come for a probe. -/
theorem State.AnswersAfter.probes {s : State} {i : Instr} {b : Byte} {ack : Bool} {n : Nat} (hs : s.AnswersAfter i b ack n)
    (hi : transactionOf i = .probe) : ∃ later, s.probes = List.replicate n none ++ some ack :: later := by
  simpa [State.AnswersAfter, hi] using hs

/-- A request uses up no answer. -/
theorem State.AnswersAfter.issue {s : State} {i : Instr} {b : Byte} {ack : Bool} {n : Nat}
    (hs : s.AnswersAfter i b ack n) (cmd : CmdWord) (e : Event) : (s.issue cmd e).AnswersAfter i b ack n := by
  simpa [State.AnswersAfter] using hs

/-- A look that uses up a listed answer leaves the inside alone. -/
theorem State.advanceRead_inside {s : State} {a : Option Byte} {later : List (Option Byte)} (h : s.reads = a :: later) :
    s.advanceRead.inside = s.inside := by
  rw [(s.advanceRead_of_cons a later h).1]
  rfl

/-- The same for a probe. -/
theorem State.advanceProbe_inside {s : State} {a : Option Bool} {later : List (Option Bool)} (h : s.probes = a :: later) :
    s.advanceProbe.inside = s.inside := by
  rw [(s.advanceProbe_of_cons a later h).1]
  rfl

/-- A read answered by a listed byte goes on from block, record and byte alone. -/
theorem State.readThen_inside {s : State} {b : Byte} {later : List (Option Byte)} (hr : s.reads = some b :: later)
    (cmd : CmdWord) {k : Byte → State → State} (hk : CommutesWithInside k) :
    (s.readThen cmd k).inside = k b ((s.inside.issue cmd (.readRequest s.inside.address)).record (.readAnswer b)) := by
  have hb : s.nextRead = some b := (s.advanceRead_of_cons _ later hr).2
  have hlook : (s.issue cmd (.readRequest s.address)).advanceRead.inside =
      s.inside.issue cmd (.readRequest s.address) := by
    rw [State.advanceRead_inside ((s.issue_reads cmd _).trans hr), State.issue_inside]
  calc (s.readThen cmd k).inside
      = (k b ((s.issue cmd (.readRequest s.address)).advanceRead.record (.readAnswer b))).inside := by
        simp [State.readThen, hb]
    _ = k b ((s.issue cmd (.readRequest s.address)).advanceRead.inside.record (.readAnswer b)) := hk b _
    _ = k b ((s.inside.issue cmd (.readRequest s.inside.address)).record (.readAnswer b)) := by rw [hlook]; rfl

/-- The same for a probe. -/
theorem State.probeThen_inside {s : State} {ack : Bool} {later : List (Option Bool)} (hp : s.probes = some ack :: later)
    (cmd : CmdWord) {k : Bool → State → State} (hk : CommutesWithInside k) :
    (s.probeThen cmd k).inside = k ack ((s.inside.issue cmd (.probeRequest s.inside.address)).record (.probeAnswer ack)) := by
  have hack : s.nextProbe = some ack := (s.advanceProbe_of_cons _ later hp).2
  have hlook : (s.issue cmd (.probeRequest s.address)).advanceProbe.inside =
      s.inside.issue cmd (.probeRequest s.address) := by
    rw [State.advanceProbe_inside ((s.issue_probes cmd _).trans hp), State.issue_inside]
  calc (s.probeThen cmd k).inside
      = (k ack ((s.issue cmd (.probeRequest s.address)).advanceProbe.record (.probeAnswer ack))).inside := by
        simp [State.probeThen, hack]
    _ = k ack ((s.issue cmd (.probeRequest s.address)).advanceProbe.inside.record (.probeAnswer ack)) := hk ack _
    _ = k ack ((s.inside.issue cmd (.probeRequest s.inside.address)).record (.probeAnswer ack)) := by rw [hlook]; rfl

/-- What an answered command does to block and record is fixed by them and the answer. -/
theorem exec_inside_congr {i : Instr} {b : Byte} {ack : Bool} {s s' t t' : State} (hs : s.AnswersAfter i b ack 0)
    (hs' : s'.AnswersAfter i b ack 0) (hsame : s.inside = s'.inside) (h : exec i s = .next t)
    (h' : exec i s' = .next t') : t.inside = t'.inside := by
  obtain hi | ⟨hi, k, hexec, hk⟩ | ⟨hi, k, hexec, hk⟩ := exec_transaction i
  · simp [State.AnswersAfter, hi] at hs
  · obtain ⟨later, hr⟩ := hs.reads hi
    obtain ⟨later', hr'⟩ := hs'.reads hi
    rw [← Host.Outcome.next.inj ((hexec s).symm.trans h), ← Host.Outcome.next.inj ((hexec s').symm.trans h'),
      State.readThen_inside hr _ hk, State.readThen_inside hr' _ hk, hsame]
  · obtain ⟨later, hp⟩ := hs.probes hi
    obtain ⟨later', hp'⟩ := hs'.probes hi
    rw [← Host.Outcome.next.inj ((hexec s).symm.trans h), ← Host.Outcome.next.inj ((hexec s').symm.trans h'),
      State.probeThen_inside hp _ hk, State.probeThen_inside hp' _ hk, hsame]

/-- An answered command commits: the block is idle and one more result has been delivered (20_memory.md R38). -/
theorem exec_answered {i : Instr} {b : Byte} {ack : Bool} {s t : State} (hs : s.AnswersAfter i b ack 0)
    (h : exec i s = .next t) : t.seq = .idle ∧ ∃ r, resultsOf t.trace = resultsOf s.trace ++ [r] := by
  obtain ⟨_, _, ⟨hi, _⟩ | ⟨hi, ⟨b', r, _, hq, ht⟩ | ⟨hn, _⟩⟩ | ⟨hi, ⟨ack', r, _, hq, ht⟩ | ⟨hn, _⟩⟩⟩ := exec_ports h
  · simp [State.AnswersAfter, hi] at hs
  · exact ⟨hq, r, by rw [ht, resultsOf_append, State.resultsOf_issue s _ rfl]; rfl⟩
  · obtain ⟨later, hr⟩ := hs.reads hi
    simp [State.nextRead, hr] at hn
  · exact ⟨hq, r, by rw [ht, resultsOf_append, State.resultsOf_issue s _ rfl]; rfl⟩
  · obtain ⟨later, hp⟩ := hs.probes hi
    simp [State.nextProbe, hp] at hn

/-- A look that is not answered sends the command's request, if it is not out, and uses up one listed answer. The command
does the same whether that request is out already or not (20_memory.md R39). -/
theorem exec_late {i : Instr} {b : Byte} {ack : Bool} {n : Nat} {s : State} (hs : s.AnswersAfter i b ack (n + 1)) :
    ∃ t e, exec i s = .next t ∧ t.AnswersAfter i b ack n ∧ t.caller = s.caller ∧
      t.inside = s.inside.issue (encode i) e ∧
      ∀ p : State, p.address = s.address → exec i (p.issue (encode i) e) = exec i p := by
  obtain hi | ⟨hi, k, hexec, -⟩ | ⟨hi, k, hexec, -⟩ := exec_transaction i
  · simp [State.AnswersAfter, hi] at hs
  · obtain ⟨later, hr⟩ := hs.reads hi
    have hn : s.nextRead = none := (s.advanceRead_of_cons _ _ hr).2
    refine ⟨(s.issue (encode i) (.readRequest s.address)).advanceRead, .readRequest s.address, ?_,
      .inl ⟨hi, later, by simp [hr, List.replicate_succ]⟩, by simp, ?_, fun p hp => ?_⟩
    · simp [hexec, State.readThen, hn]
    · rw [State.advanceRead_inside ((s.issue_reads _ _).trans hr), State.issue_inside]
    · simp [hexec, State.readThen, hp, State.issue_issue]
  · obtain ⟨later, hr⟩ := hs.probes hi
    have hn : s.nextProbe = none := (s.advanceProbe_of_cons _ _ hr).2
    refine ⟨(s.issue (encode i) (.probeRequest s.address)).advanceProbe, .probeRequest s.address, ?_,
      .inr ⟨hi, later, by simp [hr, List.replicate_succ]⟩, by simp, ?_, fun p hp => ?_⟩
    · simp [hexec, State.probeThen, hn]
    · rw [State.advanceProbe_inside ((s.issue_probes _ _).trans hr), State.issue_inside]
    · simp [hexec, State.probeThen, hp, State.issue_issue]

/-! ### The run of a late command -/

/-- In WAIT, with no reset among the next `n + 1` actions, the latched word goes on: at most one look at the observation port is
used up, and no reset is among the next `n` actions then. -/
theorem State.nextAction_of_wait_of_take {s : State} {w : CmdWord} {n : Nat} (hs : s.seq = .wait w)
    (hreset : (s.caller.take (n + 1)).all (fun c => !c.isReset) = true) :
    ∃ rest looks, s.nextAction = .run w { s with caller := rest } ∧ s.caller = List.replicate looks .observe ++ rest ∧
      looks ≤ 1 ∧ (rest.take n).all (fun c => !c.isReset) = true := by
  obtain ⟨a, rest, hc, _⟩ | ⟨_, _, hq, _⟩ | ⟨_, hq, _⟩ | ⟨hq, _⟩ | ⟨v, rest, hq, hc | ⟨hc, _⟩, hn⟩ := s.nextAction_cases
  · simp [hc, CallerAct.isReset] at hreset
  · simp [hs] at hq
  · simp [hs] at hq
  · simp [hs] at hq
  · obtain rfl : w = v := by simpa [hs] using hq
    exact ⟨rest, 1, hn, hc, le_rfl, by simpa [hc, CallerAct.isReset] using hreset⟩
  · obtain rfl : w = v := by simpa [hs] using hq
    rw [hc, List.take_add_one, List.all_append, Bool.and_eq_true] at hreset
    exact ⟨rest, 0, hn, hc, Nat.zero_le 1, hreset.1⟩

/-- A command that is about to look in `v`, and is answered at look `n + 1`, does in `n + 1` steps what it does in `p`, whose answer
is there at once; meanwhile at most `n` looks at the observation port are used up. -/
theorem runSteps_completes {w : CmdWord} {i : Instr} {b : Byte} {ack : Bool} {u : State} (hd : decode w = .ok i) (n : Nat) :
    ∀ p s v : State, p.AnswersAfter i b ack 0 → exec i p = .next u → p.inside = v.inside →
      s.nextAction = .run w v → v.seq = .idle ∨ v.seq = .wait w → v.AnswersAfter i b ack n →
      (v.caller.take n).all (fun c => !c.isReset) = true →
      ∃ t looks, runSteps (n + 1) s = .next t ∧ t.inside = u.inside ∧ looks ≤ n ∧
        v.caller = List.replicate looks .observe ++ t.caller := by
  induction n with
  | zero =>
    intro p s v hp hu hsame hn _ hv _
    obtain ⟨t, h⟩ := exec_answers i v
    obtain ⟨_, hcaller, _⟩ := exec_ports h
    exact ⟨t, 0, runSteps_succ 0 ((step_of_run hn hd).trans h), exec_inside_congr hv hp hsame.symm h hu, le_rfl,
      hcaller.symm⟩
  | succ n ih =>
    intro p s v hp hu hsame hn hseq hv hreset
    obtain rfl := encode_of_decode hd
    obtain ⟨t, e, h, ht, hcaller, hinside, hrequested⟩ := exec_late hv
    have hwait : t.inside.seq = .wait (encode i) := by
      rw [hinside]
      exact State.issue_seq (s := v.inside) hseq e
    obtain ⟨rest, looks, hn', hrest, hlooks, hreset'⟩ :=
      State.nextAction_of_wait_of_take (s := t) (n := n) hwait (by rwa [hcaller])
    have haddress : p.inside.address = v.inside.address := by rw [hsame]
    have hsame' : (p.issue (encode i) e).inside = t.inside := by rw [State.issue_inside, hsame, hinside]
    obtain ⟨t', looks', hrun, ht', hlooks', hrest'⟩ := ih (p.issue (encode i) e) t { t with caller := rest }
      (hp.issue _ e) ((hrequested p haddress).trans hu) hsame' hn' (.inr hwait) ht hreset'
    refine ⟨t', looks + looks', (runSteps_succ _ ((step_of_run hn hd).trans h)).trans hrun, ht', by omega, ?_⟩
    calc v.caller = List.replicate looks .observe ++ rest := hcaller.symm.trans hrest
      _ = List.replicate looks .observe ++ (List.replicate looks' .observe ++ t'.caller) := congrArg _ hrest'
      _ = List.replicate (looks + looks') .observe ++ t'.caller := by rw [List.replicate_add, List.append_assoc]

/-- Settles O36: the late command's run keeps the inside of the undelayed one, `runSteps_completes`, which commits,
`exec_answered`. -/
theorem commandCompletesAfterAnyFiniteDelay : Obligations.CommandCompletesAfterAnyFiniteDelay := by
  unfold Obligations.CommandCompletesAfterAnyFiniteDelay
  intro n s w i b ack rest reads probes hs hc hd hi hreset hreads hprobes
  have hn : s.nextAction = .run w { s with caller := rest } := by simp [State.nextAction, hs, hc]
  have htransaction : transactionOf i = .read ∨ transactionOf i = .probe := by
    cases h : transactionOf i <;> simp [h] at hi ⊢
  have hlate : s.AnswersAfter i b ack n :=
    htransaction.imp (fun h => ⟨h, reads, hreads⟩) (fun h => ⟨h, probes, hprobes⟩)
  have hprompt : State.AnswersAfter { s with caller := rest, reads := some b :: reads, probes := some ack :: probes }
      i b ack 0 :=
    htransaction.imp (fun h => ⟨h, reads, rfl⟩) (fun h => ⟨h, probes, rfl⟩)
  obtain ⟨u, hu⟩ := exec_answers i
    { s with caller := rest, reads := some b :: reads, probes := some ack :: probes }
  obtain ⟨hidle, r, hresult⟩ := exec_answered hprompt hu
  obtain ⟨t, looks, hrun, hinside, hlooks, hrest⟩ :=
    runSteps_completes hd n _ s { s with caller := rest } hprompt hu rfl hn (.inl hs) hlate hreset
  have hobserved : t.inside.observed = u.inside.observed := by rw [hinside]
  have hseq : t.inside.seq = u.inside.seq := by rw [hinside]
  have htrace : t.inside.trace = u.inside.trace := by rw [hinside]
  exact ⟨t, u, r, looks, hrun, hu, State.eq_of_inside_eq hinside, hobserved, hseq.trans hidle,
    (congrArg resultsOf htrace).trans hresult, hresult, hlooks, hrest⟩

end Sys2Proof.Machine

/-! # Words and commands: O1 to O4 (30_encoding.md R54, R56, R60) -/

namespace Sys2Proof

/-- Settles O1: the decoder reads the two fields of the word, `opField_encode` and `argField_encode`, and the opcode names the
constructor. -/
theorem decodeInvertsEncode : Obligations.DecodeInvertsEncode := by
  unfold Obligations.DecodeInvertsEncode
  intro i
  rw [decode, opField_encode, argField_encode]
  cases i <;> rfl

/-- Settles O2: the fields of the word are those of the command, `fields_of_decode`, and the word is its fields. -/
theorem decodedWordIsItsEncoding : Obligations.DecodedWordIsItsEncoding := by
  unfold Obligations.DecodedWordIsItsEncoding
  exact fun _ _ => Machine.encode_of_decode

/-- A word with the opcode of a command is that command on the word's operand bits. -/
theorem decode_of_opField {w : CmdWord} {i : Instr} (hop : opField w = opcodeOf i) (harg : argField w = argOf i) :
    decode w = .ok i := by
  rw [← opField_append_argField w, hop, harg]
  exact decodeInvertsEncode i

/-- Opcode 0 is reserved (30_encoding.md R60). -/
theorem decode_of_opField_zero {w : CmdWord} (hop : opField w = 0) :
    decode w = .error (.reservedOpcode (argField w)) := by
  rw [decode, hop]
  rfl

/-- Masking a word with 0x700 leaves its opcode field in place and clears the operand bits (30_encoding.md R56). -/
theorem and_opcodeMask (w : CmdWord) : w &&& 0x700 = opField w ++ 0#8 := by
  have hmask : (0x700 : CmdWord) = 7#3 ++ 0#8 := by decide
  rw [hmask]
  conv_lhs => rw [← opField_append_argField w]
  have hop : opField w &&& 7#3 = opField w := BitVec.and_allOnes
  rw [BitVec.and_append, hop, BitVec.and_zero]

/-- The row of the opcode map is read off the opcode field. -/
theorem opField_of_and_opcodeMask {w : CmdWord} {op : BitVec 3} (h : w &&& 0x700 = op ++ 0#8) : opField w = op := by
  rw [← opField_append (opField w) 0#8, ← and_opcodeMask, h, opField_append]

/-- The operand field is the low eight bits. -/
theorem argField_eq_setWidth (w : CmdWord) : argField w = w.setWidth 8 :=
  (BitVec.setWidth_eq_extractLsb' (by decide)).symm

/-- Settles O3: the masked word fixes the opcode field, `opField_of_and_opcodeMask`, and the opcode fixes the command. -/
theorem wordSelectsItsOpcodeRow : Obligations.WordSelectsItsOpcodeRow := by
  unfold Obligations.WordSelectsItsOpcodeRow
  intro w
  rw [← argField_eq_setWidth]
  exact ⟨fun h => decode_of_opField_zero (opField_of_and_opcodeMask (op := 0) h),
    fun h => decode_of_opField (opField_of_and_opcodeMask (op := 1) h) rfl,
    fun h => decode_of_opField (opField_of_and_opcodeMask (op := 2) h) rfl,
    fun h => decode_of_opField (opField_of_and_opcodeMask (op := 3) h) rfl,
    fun h => decode_of_opField (opField_of_and_opcodeMask (op := 4) h) rfl,
    fun h => decode_of_opField (opField_of_and_opcodeMask (op := 5) h) rfl,
    fun h => decode_of_opField (opField_of_and_opcodeMask (op := 6) h) rfl,
    fun h => decode_of_opField (opField_of_and_opcodeMask (op := 7) h) rfl⟩

/-- Settles O4: eight closed words, each read by the decoder. -/
theorem specVectorWordsDecode : Obligations.SpecVectorWordsDecode := by
  unfold Obligations.SpecVectorWordsDecode
  decide

end Sys2Proof

/-! # The order of events at the ports: O40 (20_memory.md R38, R39) -/

namespace Sys2Proof.Machine

/-- Later events move the ports on from where the earlier ones left them. -/
theorem portStatus_append (past later : List Event) :
    portStatus (past ++ later) = later.foldl PortStatus.after (portStatus past) :=
  List.foldl_append

/-- An idle block is orderly exactly if its ports are quiet. -/
theorem State.orderly_of_idle {s : State} (hs : s.seq = .idle) : s.Orderly ↔ portStatus s.trace = .quiet := by
  simp [State.Orderly, hs, SeqState.portStatus]

/-- Reset quiets ports that are in order (70_reset_and_hazards.md R105). -/
theorem PortStatus.after_reset {p : PortStatus} (hp : p ≠ .broken) (a : BusAddr) : p.after (.reset a) = .quiet := by
  cases p with
  | broken => exact absurd rfl hp
  | quiet | readOut | probeOut | answered => rfl

/-- Where the ports stand while a command waits for its transaction. -/
def Transaction.portStatus : Transaction → PortStatus
  | .none => .broken
  | .read => .readOut
  | .probe => .probeOut

/-- A block that waits for the command `i` has the transaction of `i` out. -/
theorem SeqState.portStatus_wait_encode (i : Instr) :
    (SeqState.wait (encode i)).portStatus = (transactionOf i).portStatus := by
  have hd := decodeInvertsEncode i
  simp only [SeqState.portStatus, hd]
  cases transactionOf i <;> rfl

/-- The request of the command's transaction, sent from IDLE or sent before, leaves an orderly block with that transaction out. -/
theorem State.Orderly.portStatus_issue {s : State} {i : Instr} {e : Event} (ho : s.Orderly)
    (hs : s.seq = .idle ∨ s.seq = .wait (encode i))
    (he : PortStatus.quiet.after e = (transactionOf i).portStatus) :
    portStatus (s.issue (encode i) e).trace = (transactionOf i).portStatus := by
  obtain hs | hs := hs
  · rw [State.issue_trace_of_idle hs, portStatus_append, (State.orderly_of_idle hs).mp ho]
    exact he
  · rw [State.issue_of_wait s _ _ e hs, ho.1, hs, SeqState.portStatus_wait_encode]

/-- A command, just accepted or latched, keeps the ports in order. -/
theorem exec_orderly {i : Instr} {s t : State} (h : exec i s = .next t) (ho : s.Orderly)
    (hs : s.seq = .idle ∨ s.seq = .wait (encode i)) : t.Orderly := by
  have hwait : ∀ e, (s.issue (encode i) e).seq = .wait (encode i) := State.issue_seq hs
  obtain ⟨_, _, ⟨hi, r, hq, ht⟩ | ⟨hi, hread⟩ | ⟨hi, hprobe⟩⟩ := exec_ports h
  · obtain hs | hs := hs
    · rw [State.orderly_of_idle hq, ht, portStatus_append, (State.orderly_of_idle hs).mp ho]
      rfl
    · refine absurd ?_ ho.2
      rw [hs, SeqState.portStatus_wait_encode, hi]
      rfl
  · have hout := ho.portStatus_issue hs (e := .readRequest s.address) (by rw [hi]; rfl)
    rw [hi] at hout
    obtain ⟨b, r, _, hq, ht⟩ | ⟨_, rfl⟩ := hread
    · rw [State.orderly_of_idle hq, ht, portStatus_append, hout]
      rfl
    · rw [State.Orderly, State.advanceRead_trace, State.advanceRead_seq, hwait, SeqState.portStatus_wait_encode, hi]
      exact ⟨hout, by decide⟩
  · have hout := ho.portStatus_issue hs (e := .probeRequest s.address) (by rw [hi]; rfl)
    rw [hi] at hout
    obtain ⟨ack, r, _, hq, ht⟩ | ⟨_, rfl⟩ := hprobe
    · rw [State.orderly_of_idle hq, ht, portStatus_append, hout]
      rfl
    · rw [State.Orderly, State.advanceProbe_trace, State.advanceProbe_seq, hwait, SeqState.portStatus_wait_encode, hi]
      exact ⟨hout, by decide⟩

/-- Settles O40: a reset quiets the ports, a command keeps them in order, `exec_orderly`, and a reserved word, which an orderly
block never has latched, commits alone. -/
theorem everyStepKeepsThePortsOrderly : Obligations.EveryStepKeepsThePortsOrderly := by
  unfold Obligations.EveryStepKeepsThePortsOrderly
  intro s t ho h
  obtain ⟨a, rest, _, rfl⟩ | ⟨_, _, _, rfl⟩ | ⟨w, rest, hs, _, ⟨i, hd, he⟩ | ⟨e, hd, rfl⟩⟩ := step_cases h
  · have hp : portStatus s.trace ≠ .broken := ho.1 ▸ ho.2
    rw [State.orderly_of_idle rfl, State.applyReset_trace, portStatus_append]
    exact PortStatus.after_reset hp a
  · exact ho
  · obtain rfl := encode_of_decode hd
    exact exec_orderly (s := { s with caller := rest }) he ho (hs.imp And.left And.left)
  · obtain ⟨hs, _⟩ | ⟨hs, _⟩ := hs
    · rw [State.orderly_of_idle rfl, State.commit_trace, portStatus_append]
      exact congrArg (PortStatus.after · (.done (.bit false))) ((State.orderly_of_idle hs).mp ho)
    · exact absurd (by simp [hs, SeqState.portStatus, hd]) ho.2

end Sys2Proof.Machine

/-! # Count and trackers: O38, O39, O41 and O42 (10_state.md R26, R27) -/

namespace Sys2Proof.Machine

/-- Settles O38: at reset `count` is 0, nothing has passed the ports, and no slot is active. -/
theorem invariantsHoldAtReset : Obligations.InvariantsHoldAtReset := by
  unfold Obligations.InvariantsHoldAtReset
  refine ⟨?_, ?_, fun i hactive => absurd hactive (Nat.not_lt_zero _)⟩
  · decide
  · exact (State.orderly_of_idle rfl).mpr rfl

/-- Settles O39: reset writes 0, and BEGIN, the only other writer of `count`, `exec_count`, writes a clamped operand. -/
theorem everyStepKeepsCountLegal : Obligations.EveryStepKeepsCountLegal := by
  unfold Obligations.EveryStepKeepsCountLegal
  intro s t hlegal h
  obtain ⟨a, rest, _, rfl⟩ | ⟨_, _, _, rfl⟩ | ⟨w, rest, _, _, ⟨i, _, he⟩ | ⟨_, _, rfl⟩⟩ := step_cases h
  · exact Nat.zero_le 2
  · exact hlegal
  · obtain hcount | ⟨n, _, _, _, hcount⟩ := exec_count he
    · rw [State.CountLegal, hcount]
      exact hlegal
    · rw [State.CountLegal, hcount, clampSlotCount_toNat]
      exact Nat.min_le_right _ _
  · exact hlegal

/-- Trackers that follow the latch still do when both are kept and no slot becomes active. -/
theorem State.Synced.of_kept {s t : State} (hs : s.Synced) (hcount : t.count.toNat ≤ s.count.toNat)
    (hlatch : t.lastValue = s.lastValue) (hpos : t.lastPos = s.lastPos) : t.Synced := by
  intro i hactive
  rw [hlatch, hpos]
  exact hs i (Nat.lt_of_lt_of_le hactive hcount)

/-- An answered INIT takes every active slot's phase from the byte it latches (40_lifecycle_ops.md R66). -/
theorem State.readThen_init_synced {s : State} {b : Byte} (hb : s.nextRead = some b) (cmd : CmdWord) :
    (s.readThen cmd fun value u => ((u.setLastValue value).forActive (seedSlot value)).commit .noValue).Synced := by
  obtain ⟨hcount, _, _, answered⟩ := s.readThen_init_registers cmd
  obtain ⟨hlatch, hpos⟩ := answered b hb
  intro i hactive
  rw [State.slotActive, hcount] at hactive
  rw [hpos i, hlatch, if_pos hactive]

/-- Settles O41: `State.readThen_init_synced`. -/
theorem initSyncsTheTrackers : Obligations.InitSyncsTheTrackers := by
  unfold Obligations.InitSyncsTheTrackers
  intro a s t b hb h
  rw [← Host.Outcome.next.inj h]
  exact State.readThen_init_synced hb _

/-- A poll keeps the trackers at the latch: it keeps both, or moves every active slot to the byte it latches. -/
theorem State.Synced.readThen_pollWith {s : State} (hs : s.Synced) (delta : TransCode → Int) (cmd : CmdWord) :
    (s.readThen cmd (pollWith delta)).Synced := by
  obtain ⟨hcount, waiting, answered⟩ := s.readThen_pollWith_registers delta cmd
  cases hb : s.nextRead with
  | none =>
    obtain ⟨hlatch, hpos, _⟩ := waiting hb
    exact hs.of_kept (congrArg BitVec.toNat hcount).le hlatch hpos
  | some b =>
    obtain ⟨hlatch, _⟩ := answered b hb
    by_cases hv : b = s.lastValue
    · exact hs.of_kept (congrArg BitVec.toNat hcount).le (hlatch.trans hv) (State.readThen_pollWith_of_eq hb hv delta cmd).1
    · intro i hactive
      rw [State.slotActive, hcount] at hactive
      obtain ⟨hmoved, _⟩ := State.readThen_pollWith_of_ne hb hv delta cmd i
      rw [(hmoved hactive).1, hlatch, phaseOf_eq_extract]

/-- A command that does not raise `count` keeps the trackers at the latch (10_state.md R27). -/
theorem exec_synced {i : Instr} {s t : State} (h : exec i s = .next t) (hs : s.Synced)
    (hcount : t.count.toNat ≤ s.count.toNat) : t.Synced := by
  obtain hquery | ⟨a, rfl⟩ | ⟨a, rfl⟩ | ⟨a, rfl⟩ := instr_query_or_sampler i
  · obtain ⟨hlatch, hpos, _⟩ := exec_query_registers h hquery
    exact hs.of_kept hcount hlatch hpos
  · cases hb : s.nextRead with
    | none =>
      obtain ⟨_, _, waiting, _⟩ := s.readThen_init_registers (encode (.init a))
      rw [← Host.Outcome.next.inj h] at hcount ⊢
      exact hs.of_kept hcount (waiting hb).1 (waiting hb).2
    | some b => exact initSyncsTheTrackers a s t b hb h
  · rw [← Host.Outcome.next.inj h]
    exact hs.readThen_pollWith deltaU _
  · rw [← Host.Outcome.next.inj h]
    exact hs.readThen_pollWith deltaS _

/-- Settles O42: after a reset no slot is active, a command keeps the trackers at the latch, `exec_synced`, and any other step
keeps the registers. -/
theorem everyStepKeepsTheTrackersSynced : Obligations.EveryStepKeepsTheTrackersSynced := by
  unfold Obligations.EveryStepKeepsTheTrackersSynced
  intro s t hs h hcount
  obtain ⟨a, rest, _, rfl⟩ | ⟨_, _, _, rfl⟩ | ⟨w, rest, _, _, ⟨i, _, he⟩ | ⟨_, _, rfl⟩⟩ := step_cases h
  · exact fun i hactive => absurd hactive (Nat.not_lt_zero _)
  · exact hs
  · exact exec_synced (s := { s with caller := rest }) he hs hcount
  · exact hs

end Sys2Proof.Machine

/-! # One step: O6, O7, O26 to O30 and O34 (20_memory.md R38, 70_reset_and_hazards.md R104, R105) -/

namespace Sys2Proof.Machine

/-- Settles O6: every field of `State.reset` is written out. -/
theorem resetStateIsZeroAndIdle : Obligations.ResetStateIsZeroAndIdle := by
  unfold Obligations.ResetStateIsZeroAndIdle
  refine ⟨rfl, rfl, fun i => ?_, rfl, rfl⟩
  cases i <;> exact ⟨rfl, rfl⟩

/-- Settles O7: the step is the reset, `step_of_reset`, whose fields are those claimed. -/
theorem resetAbandonsTheCommandInProgress : Obligations.ResetAbandonsTheCommandInProgress := by
  unfold Obligations.ResetAbandonsTheCommandInProgress
  intro s a rest hc
  exact ⟨_, step_of_reset hc, rfl, rfl, rfl, rfl, rfl, rfl, rfl, rfl⟩

/-- A step without a command settles the state. -/
theorem step_of_settle {s t : State} (hn : s.nextAction = .settle t) : step s = .next t := by
  simp [step, hn]

/-- A step on a word that does not decode delivers 0 (30_encoding.md R60; log entry 9). -/
theorem step_of_reserved {s u : State} {w : CmdWord} {e : DecodeError} (hn : s.nextAction = .run w u)
    (hd : decode w = .error e) : step s = .next (u.commit (.bit false)) := by
  simp [step, hn, hd, execReserved]

/-- An idle block accepts the word presented (20_memory.md R38). -/
theorem State.nextAction_of_present {s : State} {w : CmdWord} {rest : List CallerAct} (hs : s.seq = .idle)
    (hc : s.caller = .present w :: rest) : s.nextAction = .run w { s with caller := rest } := by
  simp [State.nextAction, hs, hc]

/-- Settles O26: the accepted word runs, `step_of_run`. -/
theorem stepRunsTheDecodedCommand : Obligations.StepRunsTheDecodedCommand := by
  unfold Obligations.StepRunsTheDecodedCommand
  exact fun s w rest i hs hc hd => step_of_run (State.nextAction_of_present hs hc) hd

/-- Settles O27: in WAIT the latched word runs, `step_of_run`, and of the caller's actions only a look is used up. -/
theorem waitingBlockRunsTheLatchedCommand : Obligations.WaitingBlockRunsTheLatchedCommand := by
  unfold Obligations.WaitingBlockRunsTheLatchedCommand
  intro s w i hs hd
  refine ⟨fun hc => ?_, fun v rest hc => ?_, fun rest hc => ?_⟩ <;>
    exact step_of_run (w := w) (by simp [State.nextAction, hs, hc]) hd

/-- The words below 0x100 have opcode 0 (30_encoding.md R60). -/
theorem opField_eq_zero_of_lt {w : CmdWord} (hw : w.toNat < 0x100) : opField w = 0 := by
  apply BitVec.eq_of_toNat_eq
  rw [opField, BitVec.extractLsb'_toNat, Nat.shiftRight_eq_div_pow, Nat.div_eq_of_lt hw]
  rfl

/-- Settles O28: the word does not decode, `decode_of_opField_zero`, so the idle block only delivers 0. -/
theorem reservedWordIsQuiet : Obligations.ReservedWordIsQuiet := by
  unfold Obligations.ReservedWordIsQuiet
  intro s w rest hs hc hw
  have hd := decode_of_opField_zero (opField_eq_zero_of_lt hw)
  rw [step_of_reserved (State.nextAction_of_present hs hc) hd, State.commit_of_idle (s := { s with caller := rest }) hs]

/-- Settles O29: without a word presented an idle block settles, `step_of_settle`. -/
theorem observingHasNoEffect : Obligations.ObservingHasNoEffect := by
  unfold Obligations.ObservingHasNoEffect
  intro s hs
  refine ⟨fun hc => ?_, fun rest hc => ?_⟩ <;>
    exact step_of_settle (by simp [State.nextAction, hs, hc])

/-- Settles O30: a step settles, runs a command, which answers, `exec_answers`, or meets a reserved word. -/
theorem everyStepHasANextState : Obligations.EveryStepHasANextState := by
  unfold Obligations.EveryStepHasANextState
  intro s
  cases hn : s.nextAction with
  | settle t => exact ⟨t, step_of_settle hn⟩
  | run w u =>
    cases hd : decode w with
    | ok i => exact (exec_answers i u).imp fun _ => (step_of_run hn hd).trans
    | error e => exact ⟨_, step_of_reserved hn hd⟩

/-- A command that leaves the block in WAIT has written no register and delivered no result (20_memory.md R38, R40). -/
theorem exec_waiting {i : Instr} {s t : State} {w : CmdWord} (h : exec i s = .next t) (ht : t.seq = .wait w) :
    t.observed = s.observed ∧ t.address = s.address ∧ resultsOf t.trace = resultsOf s.trace := by
  obtain ⟨_, _, ⟨_, _, hq, _⟩ | ⟨_, ⟨_, _, _, hq, _⟩ | ⟨_, rfl⟩⟩ | ⟨_, ⟨_, _, _, hq, _⟩ | ⟨_, rfl⟩⟩⟩ := exec_ports h
  · simp [hq] at ht
  · simp [hq] at ht
  · exact ⟨by simp [State.observed], by simp, by simp [State.resultsOf_issue s _ (e := .readRequest _) rfl]⟩
  · simp [hq] at ht
  · exact ⟨by simp [State.observed], by simp, by simp [State.resultsOf_issue s _ (e := .probeRequest _) rfl]⟩

/-- Settles O34: of the steps only an unanswered command ends in WAIT, `exec_waiting`. -/
theorem waitingCommandHasWrittenNothing : Obligations.WaitingCommandHasWrittenNothing := by
  unfold Obligations.WaitingCommandHasWrittenNothing
  intro s t w h ht
  obtain ⟨a, rest, _, rfl⟩ | ⟨_, hs, _, rfl⟩ | ⟨v, rest, _, _, ⟨i, _, he⟩ | ⟨_, _, rfl⟩⟩ := step_cases h
  · simp at ht
  · simp [hs] at ht
  · exact exec_waiting (s := { s with caller := rest }) he ht
  · simp at ht

end Sys2Proof.Machine

/-! # BEGIN from IDLE: O9 (40_lifecycle_ops.md R64) -/

namespace Sys2Proof.Machine

/-- Settles O9: from IDLE the answered probe goes straight to the commit, `State.probeThen_of_idle`. -/
theorem beginClampsCountAndReturnsAck : Obligations.BeginClampsCountAndReturnsAck := by
  unfold Obligations.BeginClampsCountAndReturnsAck
  intro n s ack hs hack
  rw [exec_begin, State.probeThen_of_idle s _ _ ack hs hack]
  simp [State.setCount, State.commit, clampSlotCount, hs]

end Sys2Proof.Machine

/-! # KEY: O23, O24 and O25 (42_button_ops.md R85, R86, R87) -/

namespace Sys2Proof.Machine

/-- An operand of 2 or more names no slot (30_encoding.md R59). -/
theorem keySlot_of_two_le {a : Arg} (ha : 2 ≤ a.toNat) : keySlot a = none := by
  have h0 : a ≠ 0 := by rintro rfl; simp at ha
  have h1 : a ≠ 1 := by rintro rfl; simp at ha
  rw [keySlot, if_neg h0, if_neg h1]

/-- Settles O23: an operand that names no slot is answered by 0. -/
theorem keyOutOfRangeReturnsFalse : Obligations.KeyOutOfRangeReturnsFalse := by
  unfold Obligations.KeyOutOfRangeReturnsFalse
  intro a s hs ha
  rw [exec_key_of_idle hs, keyResult, keySlot_of_two_le ha]

/-- Settles O25: the latch holds 0, where both button bits read as pressed. -/
theorem buttonsReadPressedAfterReset : Obligations.ButtonsReadPressedAfterReset := by
  unfold Obligations.ButtonsReadPressedAfterReset
  intro s hs hreset
  have hlatch : s.lastValue = 0x00 := congrArg Observation.lastValue hreset
  rw [exec_key_of_idle hs, exec_key_of_idle hs, hlatch]
  exact ⟨rfl, rfl⟩

/-- The button bit is bit 2 of the slot's nibble (30_encoding.md R45). -/
theorem buttonMask_eq_twoPow (i : Slot) : buttonMask i = BitVec.twoPow 8 (4 * i.index + 2) := by
  cases i <;> rfl

/-- KEY answers the negation of the slot's button bit (30_encoding.md R48). -/
theorem keyResult_eq_not_getLsbD {a : Arg} {i : Slot} (ha : keySlot a = some i) (value : Byte) :
    keyResult a value = !value.getLsbD (4 * i.index + 2) := by
  have hmask : BitVec.twoPow 8 (4 * i.index + 2) ≠ 0 := by cases i <;> decide
  rw [keyResult_of_slot ha, buttonMask_eq_twoPow, BitVec.and_twoPow]
  cases value.getLsbD (4 * i.index + 2) with
  | true => simpa using hmask
  | false => rfl

/-- An answered INIT, UPDATE or UPDSGL latches the byte (10_state.md R12). -/
theorem exec_sampler_lastValue {f : Arg → Instr} (hf : f ∈ [Instr.init, Instr.update, Instr.updsgl]) {a : Arg} {s t : State}
    {b : Byte} (hb : s.nextRead = some b) (h : exec (f a) s = .next t) : t.lastValue = b := by
  rw [List.mem_cons, List.mem_pair] at hf
  obtain rfl | rfl | rfl := hf <;> rw [← Host.Outcome.next.inj h]
  · obtain ⟨_, _, _, answered⟩ := s.readThen_init_registers (encode (.init a))
    exact (answered b hb).1
  · obtain ⟨_, _, answered⟩ := s.readThen_pollWith_registers deltaU (encode (.update a))
    exact (answered b hb).1
  · obtain ⟨_, _, answered⟩ := s.readThen_pollWith_registers deltaS (encode (.updsgl a))
    exact (answered b hb).1

/-- Settles O24: the first command latches the byte, `exec_sampler_lastValue`, HASCHG keeps the latch, `exec_query_registers`,
and KEY answers from it, `keyResult_eq_not_getLsbD`. -/
theorem keyAnswersFromTheLastCommittedSample : Obligations.KeyAnswersFromTheLastCommittedSample := by
  unfold Obligations.KeyAnswersFromTheLastCommittedSample
  intro f hf a h s b c rest _ hreads
  have hb : s.nextRead = some b := (s.advanceRead_of_cons _ _ hreads).2
  obtain ⟨t, ht⟩ := exec_answers (f a) s
  obtain ⟨u, hu⟩ := exec_answers (.haschg h) t
  obtain ⟨hkept, _, _⟩ := exec_query_registers hu (.inr (.inr (.inl ⟨h, rfl⟩)))
  have hlatch : u.lastValue = b := hkept.trans (exec_sampler_lastValue hf hb ht)
  refine ⟨t, u, _, _, ht, hu, exec_key 0 u, exec_key 1 u, ?_, ?_⟩
  · rw [State.commit_trace, keyResult_eq_not_getLsbD (i := .slot0) rfl, hlatch]
    rfl
  · rw [State.commit_trace, keyResult_eq_not_getLsbD (i := .slot1) rfl, hlatch]
    rfl

end Sys2Proof.Machine

/-! # What a poll counts: O15 to O21 (41_poll_ops.md R72 to R84) -/

namespace Sys2Proof.Machine

/-! ### Slots and phases -/

/-- UPDATE and UPDSGL are one read decoded by their outcome table (41_poll_ops.md R70, R71). -/
theorem exec_poll {f : Arg → Instr} (hf : f = Instr.update ∨ f = Instr.updsgl) :
    ∃ delta, (delta = deltaU ∨ delta = deltaS) ∧
      ∀ a s, exec (f a) s = .next (s.readThen (encode (f a)) (pollWith delta)) := by
  obtain rfl | rfl := hf
  · exact ⟨deltaU, .inl rfl, exec_update⟩
  · exact ⟨deltaS, .inr rfl, exec_updsgl⟩

/-- Settles O15: after a changed byte a slot holds what its own phase, accumulator and phase bits give,
`State.readThen_pollWith_of_ne`. -/
theorem slotsDecodeIndependently : Obligations.SlotsDecodeIndependently := by
  unfold Obligations.SlotsDecodeIndependently
  intro f hf i s s' t t' b b' hactive hactive' hb hb' hv hv' hphase hpos henc h h'
  obtain ⟨delta, _, hexec⟩ := exec_poll hf
  obtain ⟨hslot, _⟩ := State.readThen_pollWith_of_ne hb hv delta (encode (f 0)) i
  obtain ⟨hslot', _⟩ := State.readThen_pollWith_of_ne hb' hv' delta (encode (f 0)) i
  obtain ⟨ht, hte⟩ := hslot hactive
  obtain ⟨ht', hte'⟩ := hslot' hactive'
  rw [← Host.Outcome.next.inj ((hexec 0 s).symm.trans h), ← Host.Outcome.next.inj ((hexec 0 s').symm.trans h')]
  rw [ht, ht', hte, hte', hphase, hpos, henc]
  exact ⟨rfl, rfl⟩

/-- No table counts a phase that stays (30_encoding.md R50). -/
theorem delta_append_self {delta : TransCode → Int} (hdelta : delta = deltaU ∨ delta = deltaS) :
    ∀ p : Phase, delta (p ++ p) = 0 := by
  obtain rfl | rfl := hdelta <;> decide

/-- A changed byte that keeps the phases of the active slots moves no tracker that follows the latch, and counts nothing. -/
theorem State.Synced.readThen_pollWith_keeps {s : State} {b : Byte} {delta : TransCode → Int} (hs : s.Synced)
    (hb : s.nextRead = some b) (hv : b ≠ s.lastValue)
    (hphase : ∀ i : Slot, s.slotActive i → b.extractLsb' (4 * i.index) 2 = s.lastValue.extractLsb' (4 * i.index) 2)
    (hdelta : ∀ p : Phase, delta (p ++ p) = 0) (cmd : CmdWord) :
    (s.readThen cmd (pollWith delta)).lastPos = s.lastPos ∧ (s.readThen cmd (pollWith delta)).encoder = s.encoder := by
  have hslot : ∀ i, (s.readThen cmd (pollWith delta)).lastPos.get i = s.lastPos.get i ∧
      (s.readThen cmd (pollWith delta)).encoder.get i = s.encoder.get i := by
    intro i
    obtain ⟨hactive, hinactive⟩ := State.readThen_pollWith_of_ne hb hv delta cmd i
    obtain hi | hi := Nat.lt_or_ge i.index s.count.toNat
    · have hfollows : b.extractLsb' (4 * i.index) 2 = s.lastPos.get i := by
        rw [hphase i hi, hs i hi, phaseOf_eq_extract]
      obtain ⟨hpos, henc⟩ := hactive hi
      rw [hpos, henc, hfollows, hdelta, addDelta_zero]
      exact ⟨rfl, rfl⟩
    · exact hinactive hi
  exact ⟨PerSlot.ext_get fun i => (hslot i).1, PerSlot.ext_get fun i => (hslot i).2⟩

/-- Settles O16: the registers are kept, `State.Synced.readThen_pollWith_keeps`; the rest is the poll's frame, accepted or late. -/
theorem changeOutsidePhasesCountsNothing : Obligations.ChangeOutsidePhasesCountsNothing := by
  unfold Obligations.ChangeOutsidePhasesCountsNothing
  intro f hf a s b sent hseq hb hs hv hphase
  obtain ⟨delta, hdelta, hexec⟩ := exec_poll hf
  obtain ⟨hpos, henc⟩ := hs.readThen_pollWith_keeps hb hv hphase (delta_append_self hdelta) (encode (f a))
  rw [hexec, Host.Outcome.next.injEq]
  obtain ⟨hq, rfl⟩ | ⟨hq, rfl⟩ := hseq
  · refine (State.readThen_pollWith_frame_of_idle hq hb delta _).trans ?_
    simp [hpos, henc, hv, hq]
  · refine (State.readThen_pollWith_frame_of_wait hq hb delta _).trans ?_
    simp [hpos, henc, hv]

/-! ### The accumulator as a number -/

/-- An accumulator counts in the signed reading, and wraps there (41_poll_ops.md R81). -/
theorem addDelta_toInt (e : Acc) (d : Int) : (addDelta e d).toInt = (e.toInt + d).bmod 4294967296 := by
  rw [addDelta, BitVec.toInt_add, BitVec.toInt_ofInt]
  exact Int.add_bmod_bmod

/-- A signed reading is a 32-bit one. -/
theorem acc_toInt_bounds (e : Acc) : -2147483648 ≤ e.toInt ∧ e.toInt ≤ 2147483647 := by
  have hlow := BitVec.le_two_mul_toInt (x := e)
  have hhigh := BitVec.two_mul_toInt_lt (x := e)
  rw [two_pow_encWidth_int] at hlow hhigh
  omega

/-- Counting up wraps at the largest value only. -/
theorem addDelta_one_toInt (e : Acc) :
    (addDelta e 1).toInt = if e.toInt = 2 ^ 31 - 1 then -2 ^ 31 else e.toInt + 1 := by
  have hbounds := acc_toInt_bounds e
  rw [addDelta_toInt, Int.bmod_def]
  split <;> split <;> omega

/-- Counting down wraps at the most negative value only. -/
theorem addDelta_neg_one_toInt (e : Acc) :
    (addDelta e (-1)).toInt = if e.toInt = -2 ^ 31 then 2 ^ 31 - 1 else e.toInt - 1 := by
  have hbounds := acc_toInt_bounds e
  rw [addDelta_toInt, Int.bmod_def]
  split <;> split <;> omega

/-- UPDATE counts 1 on a forward code (30_encoding.md R51). -/
theorem deltaU_of_forward : ∀ code ∈ [0b0001#4, 0b0111#4, 0b1110#4, 0b1000#4], deltaU code = 1 := by
  decide

/-- UPDATE counts -1 on a reverse code (30_encoding.md R51). -/
theorem deltaU_of_reverse : ∀ code ∈ [0b0010#4, 0b0100#4, 0b1101#4, 0b1011#4], deltaU code = -1 := by
  decide

/-- Settles O17: the slot counts by `deltaU`, and the signed reading wraps as `addDelta_one_toInt` and `addDelta_neg_one_toInt`
say. -/
theorem updateWrapsInTheSignedReading : Obligations.UpdateWrapsInTheSignedReading := by
  unfold Obligations.UpdateWrapsInTheSignedReading
  intro a i s t b _ hb hv hi h
  obtain ⟨hactive, _⟩ := State.readThen_pollWith_of_ne hb hv deltaU (encode (.update a)) i
  obtain ⟨_, henc⟩ := hactive hi
  rw [← Host.Outcome.next.inj h, henc]
  exact ⟨fun hcode => by rw [deltaU_of_forward _ hcode, addDelta_one_toInt],
    fun hcode => by rw [deltaU_of_reverse _ hcode, addDelta_neg_one_toInt]⟩

/-- UPDSGL counts the way forward on the gray-code cycle (30_encoding.md R53). -/
theorem deltaS_append : ∀ prev cur : Phase,
    deltaS (prev ++ cur) = ((grayPosition cur + 4 - grayPosition prev) % 4 : Nat) := by
  decide

/-- A count that is not negative adds in the unsigned reading, and wraps there (41_poll_ops.md R82). -/
theorem addDelta_natCast_toNat (e : Acc) (n : Nat) : (addDelta e n).toNat = (e.toNat + n) % 2 ^ 32 := by
  rw [addDelta, BitVec.ofInt_natCast, BitVec.toNat_add, BitVec.toNat_ofNat]
  exact Nat.add_mod_mod _ _ _

/-- Settles O18: the slot counts by `deltaS`, which is the distance on the cycle, `deltaS_append`. -/
theorem updsglAddsTheCycleDistance : Obligations.UpdsglAddsTheCycleDistance := by
  unfold Obligations.UpdsglAddsTheCycleDistance
  intro a i s t b _ hb hv hi h
  obtain ⟨hactive, _⟩ := State.readThen_pollWith_of_ne hb hv deltaS (encode (.updsgl a)) i
  obtain ⟨_, henc⟩ := hactive hi
  rw [← Host.Outcome.next.inj h, henc, deltaS_append, addDelta_natCast_toNat]

/-! ### The position modulo 4 -/

/-- How far slot i's accumulator is ahead of the slot's position on the gray-code cycle, modulo 4 (41_poll_ops.md R84). -/
def State.lead (s : State) (i : Slot) : Int :=
  ((s.encoder.get i).toNat - grayPosition (s.lastPos.get i) : Int) % 4

/-- The law of R84 says that the lead is kept. -/
theorem State.lead_eq_iff (s t : State) (i : Slot) : t.lead i = s.lead i ↔
    ((t.encoder.get i).toNat + grayPosition (s.lastPos.get i)) % 4 =
      ((s.encoder.get i).toNat + grayPosition (t.lastPos.get i)) % 4 := by
  unfold State.lead
  omega

/-- The wrap at `2^32` is lost modulo 4. -/
theorem addDelta_toNat_emod_four (e : Acc) (d : Int) : ((addDelta e d).toNat : Int) % 4 = (e.toNat + d) % 4 := by
  rw [addDelta, BitVec.toNat_add, BitVec.toNat_ofInt, two_pow_encWidth]
  omega

/-- A poll whose table counts the move on the cycle, modulo 4, keeps the lead of an active slot. -/
theorem State.readThen_pollWith_lead {s : State} {i : Slot} {delta : TransCode → Int} (hi : s.slotActive i)
    (hdelta : ∀ b, s.nextRead = some b → delta (s.lastPos.get i ++ b.extractLsb' (4 * i.index) 2) % 4 =
      (grayPosition (b.extractLsb' (4 * i.index) 2) - grayPosition (s.lastPos.get i) : Int) % 4) (cmd : CmdWord) :
    (s.readThen cmd (pollWith delta)).lead i = s.lead i := by
  cases hb : s.nextRead with
  | none =>
    obtain ⟨_, waiting, _⟩ := s.readThen_pollWith_registers delta cmd
    obtain ⟨_, hpos, henc⟩ := waiting hb
    rw [State.lead, hpos, henc, State.lead]
  | some b =>
    by_cases hv : b = s.lastValue
    · obtain ⟨hpos, henc⟩ := State.readThen_pollWith_of_eq hb hv delta cmd
      rw [State.lead, hpos, henc, State.lead]
    · obtain ⟨hactive, _⟩ := State.readThen_pollWith_of_ne hb hv delta cmd i
      obtain ⟨hpos, henc⟩ := hactive hi
      have hmove := hdelta b hb
      have hwrap := addDelta_toNat_emod_four (s.encoder.get i) (delta (s.lastPos.get i ++ b.extractLsb' (4 * i.index) 2))
      rw [State.lead, hpos, henc, State.lead]
      omega

/-- A poll leaves the number of active slots alone. -/
theorem State.slotActive.readThen_pollWith {s : State} {i : Slot} (hi : s.slotActive i) (delta : TransCode → Int)
    (cmd : CmdWord) : (s.readThen cmd (pollWith delta)).slotActive i := by
  rw [State.slotActive, (s.readThen_pollWith_registers delta cmd).1]
  exact hi

/-- UPDSGL counts the move on the cycle, modulo 4 (30_encoding.md R53). -/
theorem deltaS_append_emod_four : ∀ prev cur : Phase,
    deltaS (prev ++ cur) % 4 = (grayPosition cur - grayPosition prev : Int) % 4 := by
  decide

/-- UPDSGL keeps the lead of an active slot, and the slot active. -/
theorem exec_updsgl_lead {a : Arg} {i : Slot} {s t : State} (hi : s.slotActive i) (h : exec (.updsgl a) s = .next t) :
    t.slotActive i ∧ t.lead i = s.lead i := by
  rw [← Host.Outcome.next.inj h]
  exact ⟨hi.readThen_pollWith deltaS _, State.readThen_pollWith_lead hi (fun b _ => deltaS_append_emod_four _ _) _⟩

/-- What every call of a partial step keeps, a run of calls keeps. -/
theorem foldlM_keeps {σ α : Type} {P : σ → Prop} {g : σ → α → Option σ} (hg : ∀ u a v, P u → g u a = some v → P v) :
    ∀ (args : List α) (s t : σ), P s → args.foldlM g s = some t → P t := by
  intro args
  induction args with
  | nil => exact fun s t hs h => Option.some.inj h ▸ hs
  | cons a args ih =>
    intro s t hs h
    obtain ⟨u, hu, hrun⟩ := Option.bind_eq_some_iff.mp h
    exact ih u t (hg s a u hs hu) hrun

/-- Settles O19: each UPDSGL keeps the lead, `exec_updsgl_lead`, and so does the run, `foldlM_keeps`. -/
theorem updsglTracksThePositionModuloFour : Obligations.UpdsglTracksThePositionModuloFour := by
  unfold Obligations.UpdsglTracksThePositionModuloFour
  intro i args s t hi hrun
  refine (State.lead_eq_iff s t i).mp (foldlM_keeps (P := fun u : State => u.slotActive i ∧ u.lead i = s.lead i)
    (fun u a v hu h => ?_) args s t ⟨hi, rfl⟩ hrun).2
  obtain ⟨hactive, hlead⟩ := exec_updsgl_lead (t := v) hu.1 (by simpa [exec_updsgl] using h)
  exact ⟨hactive, hlead.trans hu.2⟩

/-- But for a double step UPDATE counts the move on the cycle, modulo 4 (30_encoding.md R51). -/
theorem deltaU_append_emod_four : ∀ prev cur : Phase,
    (prev ++ cur : TransCode) ∉ [0b0011#4, 0b0110#4, 0b1001#4, 0b1100#4] →
    deltaU (prev ++ cur) % 4 = (grayPosition cur - grayPosition prev : Int) % 4 := by
  decide

/-- Settles O20: without a double step UPDATE counts the move, `deltaU_append_emod_four`, so it keeps the lead. -/
theorem updateTracksThePositionWithoutDoubleSteps : Obligations.UpdateTracksThePositionWithoutDoubleSteps := by
  unfold Obligations.UpdateTracksThePositionWithoutDoubleSteps
  intro a i s t hi hcode h
  rw [← Host.Outcome.next.inj h]
  exact (State.lead_eq_iff s _ i).mp
    (State.readThen_pollWith_lead hi (fun b hb => deltaU_append_emod_four _ _ (hcode b hb)) _)

/-! ### A step and its return -/

/-- Two polls of an active slot, each with a changed byte, count both codes and leave the second phase. -/
theorem State.readThen_pollWith_twice {s : State} {i : Slot} {b c : Byte} {rest : List (Option Byte)} (hs : s.seq = .idle)
    (hi : s.slotActive i) (hreads : s.reads = some b :: some c :: rest) (hb : b ≠ s.lastValue) (hc : c ≠ b)
    (delta : TransCode → Int) (cmd : CmdWord) :
    let u := (s.readThen cmd (pollWith delta)).readThen cmd (pollWith delta)
    let middle := b.extractLsb' (4 * i.index) 2
    let last := c.extractLsb' (4 * i.index) 2
    u.encoder.get i = addDelta (s.encoder.get i) (delta (s.lastPos.get i ++ middle) + delta (middle ++ last)) ∧
    u.lastPos.get i = last := by
  intro u middle last
  have hnext : s.nextRead = some b := (s.advanceRead_of_cons _ _ hreads).2
  have hframe := State.readThen_pollWith_frame_of_idle hs hnext delta cmd
  have hlatch := congrArg State.lastValue hframe
  have hreads' : (s.readThen cmd (pollWith delta)).reads = some c :: rest := by
    rw [hframe, State.advanceRead_reads, hreads, List.tail_cons]
  have hnext' := (State.advanceRead_of_cons _ _ _ hreads').2
  obtain ⟨hfirst, _⟩ := State.readThen_pollWith_of_ne hnext hb delta cmd i
  obtain ⟨hsecond, _⟩ := State.readThen_pollWith_of_ne hnext' (hlatch ▸ hc) delta cmd i
  obtain ⟨hpos, henc⟩ := hfirst hi
  obtain ⟨hpos', henc'⟩ := hsecond (hi.readThen_pollWith delta cmd)
  refine ⟨henc'.trans ?_, hpos'⟩
  rw [henc, hpos, addDelta_addDelta]

/-- A single step and its return count 0 for UPDATE and 4 for UPDSGL (41_poll_ops.md R84). -/
theorem delta_step_and_return : ∀ p q : Phase,
    (p ++ q : TransCode) ∈
      [0b0001#4, 0b0111#4, 0b1110#4, 0b1000#4, 0b0010#4, 0b0100#4, 0b1101#4, 0b1011#4] →
    deltaU (p ++ q) + deltaU (q ++ p) = 0 ∧ deltaS (p ++ q) + deltaS (q ++ p) = 4 := by
  decide

/-- Settles O21: two polls add what the step and the return count, `State.readThen_pollWith_twice` and `delta_step_and_return`. -/
theorem stepAndReturnCancel : Obligations.StepAndReturnCancel := by
  unfold Obligations.StepAndReturnCancel
  intro i s b c rest hs hi hreads hb hc hback hcode
  obtain ⟨hU, hS⟩ := delta_step_and_return _ _ hcode
  constructor
  · obtain ⟨henc, hpos⟩ := State.readThen_pollWith_twice hs hi hreads hb hc deltaU (encode (.update 0))
    rw [hback, hU, addDelta_zero] at henc
    exact ⟨_, _, exec_update 0 s, exec_update 0 _, henc, hpos.trans hback⟩
  · obtain ⟨henc, hpos⟩ := State.readThen_pollWith_twice hs hi hreads hb hc deltaS (encode (.updsgl 0))
    rw [hback, hS] at henc
    exact ⟨_, _, exec_updsgl 0 s, exec_updsgl 0 _, henc, hpos.trans hback⟩

end Sys2Proof.Machine

/-! # What has no influence: O5 and O37 (30_encoding.md R61; 10_state.md R19, 60_exceptions.md R89)

Once its answer is there a command computes from the registers alone: not from the word that is latched, nor from what has passed
the ports, nor from the bus address. -/

namespace Sys2Proof.Machine

/-! ### Sequencing state, record and address -/

/-- The same registers and the same world outside, with another sequencing state, record and address. -/
def State.relabel (s : State) (q : SeqState) (past : List Event) (a : BusAddr) : State :=
  { s with seq := q, trace := past, address := a }

@[simp] theorem State.relabel_nextRead (s : State) (q : SeqState) (past : List Event) (a : BusAddr) :
    (s.relabel q past a).nextRead = s.nextRead := rfl

@[simp] theorem State.relabel_nextProbe (s : State) (q : SeqState) (past : List Event) (a : BusAddr) :
    (s.relabel q past a).nextProbe = s.nextProbe := rfl

/-- A look for a read touches none of the three. -/
theorem State.advanceRead_relabel (s : State) (q : SeqState) (past : List Event) (a : BusAddr) :
    (s.relabel q past a).advanceRead = s.advanceRead.relabel q past a := by
  obtain ⟨_, _, _, _, _, _, _, reads, _, _, _⟩ := s
  cases reads <;> rfl

/-- The same for a probe. -/
theorem State.advanceProbe_relabel (s : State) (q : SeqState) (past : List Event) (a : BusAddr) :
    (s.relabel q past a).advanceProbe = s.advanceProbe.relabel q past a := by
  obtain ⟨_, _, _, _, _, _, _, _, probes, _, _⟩ := s
  cases probes <;> rfl

/-- The slot loop touches none of the three if its body does not. -/
theorem State.forActive_relabel {body : Slot → State → State} {q : SeqState} {past : List Event} {a : BusAddr}
    (hbody : ∀ j u, body j (u.relabel q past a) = (body j u).relabel q past a) (s : State) :
    (s.relabel q past a).forActive body = (s.forActive body).relabel q past a :=
  List.foldl_hom (State.relabel · q past a) fun u j => hbody j u

/-- A continuation that sees and writes only registers, and commits one result. -/
def SeesOnlyRegisters {α : Type} (k : α → State → State) : Prop :=
  ∀ v u, ∃ r, ∀ q past a, k v (u.relabel q past a) = (k v u).relabel .idle (past ++ [.done r]) a

/-- INIT, once its byte is there. -/
theorem init_seesOnlyRegisters : SeesOnlyRegisters fun value (u : State) =>
    ((u.setLastValue value).forActive (seedSlot value)).commit .noValue := by
  intro b u
  refine ⟨.noValue, fun q past a => ?_⟩
  have hloop := State.forActive_relabel (body := seedSlot b) (q := q) (past := past) (a := a) (fun _ _ => rfl)
    (u.setLastValue b)
  exact congrArg (State.commit · .noValue) hloop

/-- HASCHG, once its byte is there. -/
theorem haschg_seesOnlyRegisters : SeesOnlyRegisters fun value (u : State) =>
    u.commit (.bit (sampleDiffers value u.lastValue)) :=
  fun b u => ⟨.bit (sampleDiffers b u.lastValue), fun _ _ _ => rfl⟩

/-- A poll, once its byte is there. -/
theorem pollWith_seesOnlyRegisters (delta : TransCode → Int) : SeesOnlyRegisters (pollWith delta) := by
  intro b u
  by_cases hv : b = u.lastValue
  · refine ⟨.bit false, fun q past a => ?_⟩
    rw [pollWith_of_eq delta b u hv, pollWith_of_eq delta b (u.relabel q past a) hv]
    rfl
  · refine ⟨.bit true, fun q past a => ?_⟩
    rw [pollWith_of_ne delta b u hv, pollWith_of_ne delta b (u.relabel q past a) hv,
      State.forActive_relabel fun _ _ => rfl]
    rfl

/-- ISCONN, once its probe is answered. -/
theorem isconn_seesOnlyRegisters : SeesOnlyRegisters fun ack (u : State) => u.commit (.bit ack) :=
  fun _ _ => ⟨_, fun _ _ _ => rfl⟩

/-- BEGIN, once its probe is answered. -/
theorem begin_seesOnlyRegisters (n : Arg) : SeesOnlyRegisters fun ack (u : State) =>
    (u.setCount (clampSlotCount n)).commit (.bit ack) :=
  fun _ _ => ⟨_, fun _ _ _ => rfl⟩

/-! ### Ignored operand bits -/

/-- Two ends `t` and `u` of one command accepted in `s` under the words `c` and `d`: the same, but for the word latched if the
block has just gone into WAIT. -/
def State.EndsAlike (s : State) (c d : CmdWord) (t u : State) : Prop :=
  { u with seq := t.seq } = t ∧ (u.seq = t.seq ∨ (s.seq = .idle ∧ t.seq = .wait c ∧ u.seq = .wait d))

/-- Ends that are the same end alike. -/
theorem State.EndsAlike.of_eq {s t u : State} {c d : CmdWord} (h : u = t) : s.EndsAlike c d t u := by
  subst h
  exact ⟨rfl, .inl rfl⟩

/-- From IDLE an unanswered read goes into WAIT with its word latched. -/
theorem State.readThen_of_idle_of_unanswered {s : State} (hs : s.seq = .idle) (hn : s.nextRead = none) (cmd : CmdWord)
    (k : Byte → State → State) :
    s.readThen cmd k = s.advanceRead.relabel (.wait cmd) (s.trace ++ [.readRequest s.address]) s.address := by
  have hlook : s.readThen cmd k = (s.issue cmd (.readRequest s.address)).advanceRead := by simp [State.readThen, hn]
  rw [hlook, State.issue_of_idle s cmd _ hs]
  exact s.advanceRead_relabel _ _ _

/-- The same for a probe. -/
theorem State.probeThen_of_idle_of_unanswered {s : State} (hs : s.seq = .idle) (hn : s.nextProbe = none) (cmd : CmdWord)
    (k : Bool → State → State) :
    s.probeThen cmd k = s.advanceProbe.relabel (.wait cmd) (s.trace ++ [.probeRequest s.address]) s.address := by
  have hlook : s.probeThen cmd k = (s.issue cmd (.probeRequest s.address)).advanceProbe := by simp [State.probeThen, hn]
  rw [hlook, State.issue_of_idle s cmd _ hs]
  exact s.advanceProbe_relabel _ _ _

/-- A read of a command that sees only registers ends alike under any two words. -/
theorem State.readThen_endsAlike {k : Byte → State → State} (hk : SeesOnlyRegisters k) (s : State) (c d : CmdWord) :
    s.EndsAlike c d (s.readThen c k) (s.readThen d k) := by
  cases hs : s.seq with
  | wait latched => exact .of_eq (by simp [State.readThen, State.issue_of_wait _ _ latched _ hs])
  | idle =>
    cases hb : s.nextRead with
    | some b =>
      rw [State.readThen_of_idle s c k b hs hb, State.readThen_of_idle s d k b hs hb]
      obtain ⟨r, h⟩ := hk b s.advanceRead
      exact .of_eq ((h (.wait d) _ _).trans (h (.wait c) _ _).symm)
    | none =>
      rw [State.readThen_of_idle_of_unanswered hs hb, State.readThen_of_idle_of_unanswered hs hb]
      exact ⟨rfl, .inr ⟨hs, rfl, rfl⟩⟩

/-- The same for a probe. -/
theorem State.probeThen_endsAlike {k : Bool → State → State} (hk : SeesOnlyRegisters k) (s : State) (c d : CmdWord) :
    s.EndsAlike c d (s.probeThen c k) (s.probeThen d k) := by
  cases hs : s.seq with
  | wait latched => exact .of_eq (by simp [State.probeThen, State.issue_of_wait _ _ latched _ hs])
  | idle =>
    cases hb : s.nextProbe with
    | some ack =>
      rw [State.probeThen_of_idle s c k ack hs hb, State.probeThen_of_idle s d k ack hs hb]
      obtain ⟨r, h⟩ := hk ack s.advanceProbe
      exact .of_eq ((h (.wait d) _ _).trans (h (.wait c) _ _).symm)
    | none =>
      rw [State.probeThen_of_idle_of_unanswered hs hb, State.probeThen_of_idle_of_unanswered hs hb]
      exact ⟨rfl, .inr ⟨hs, rfl, rfl⟩⟩

/-- Settles O5: the two forms are one transaction with one continuation, which ends alike under both words. -/
theorem ignoredOperandHasNoEffect : Obligations.IgnoredOperandHasNoEffect := by
  unfold Obligations.IgnoredOperandHasNoEffect
  intro f hf a b s
  simp only [List.mem_cons, List.not_mem_nil, or_false] at hf
  obtain rfl | rfl | rfl | rfl | rfl := hf
  · exact ⟨_, _, exec_isconn a s, exec_isconn b s, State.probeThen_endsAlike isconn_seesOnlyRegisters s _ _⟩
  · exact ⟨_, _, exec_init a s, exec_init b s, State.readThen_endsAlike init_seesOnlyRegisters s _ _⟩
  · exact ⟨_, _, exec_haschg a s, exec_haschg b s, State.readThen_endsAlike haschg_seesOnlyRegisters s _ _⟩
  · exact ⟨_, _, exec_update a s, exec_update b s, State.readThen_endsAlike (pollWith_seesOnlyRegisters deltaU) s _ _⟩
  · exact ⟨_, _, exec_updsgl a s, exec_updsgl b s, State.readThen_endsAlike (pollWith_seesOnlyRegisters deltaS) s _ _⟩

/-! ### Record and address -/

/-- What `f` does in `s` does not depend on record and address: from any others it does the same and adds the same results. -/
def BlindAt (f : State → State) (s : State) : Prop :=
  ∃ events, (f s).trace = s.trace ++ events ∧
    ∀ past a, ∃ events', resultsOf events' = resultsOf events ∧
      f (s.relabel s.seq past a) = (f s).relabel (f s).seq (past ++ events') a

/-- One thing done after the other. -/
theorem BlindAt.comp {f g : State → State} {s : State} (hg : BlindAt g (f s)) (hf : BlindAt f s) :
    BlindAt (fun u => g (f u)) s := by
  obtain ⟨first, hfirst, hfollow⟩ := hf
  obtain ⟨second, hsecond, hfollow'⟩ := hg
  refine ⟨first ++ second, by rw [hsecond, hfirst, List.append_assoc], fun past a => ?_⟩
  obtain ⟨first', hresults, h⟩ := hfollow past a
  obtain ⟨second', hresults', h'⟩ := hfollow' (past ++ first') a
  refine ⟨first' ++ second', by simp [hresults, hresults'], ?_⟩
  dsimp only
  rw [h, h', List.append_assoc]

/-- It is enough to look at the states that differ in record and address only. -/
theorem BlindAt.congr {f g : State → State} {s : State} (hg : BlindAt g s)
    (h : ∀ past a, f (s.relabel s.seq past a) = g (s.relabel s.seq past a)) : BlindAt f s := by
  have hs : f s = g s := h s.trace s.address
  simpa only [BlindAt, h, hs] using hg

/-- A request carries the address and delivers no result. -/
theorem blindAt_issue (s : State) (cmd : CmdWord) {request : BusAddr → Event} (hr : ∀ a, (request a).isRequest = true) :
    BlindAt (fun u => u.issue cmd (request u.address)) s := by
  have hquiet : ∀ a, resultsOf [request a] = [] := by
    intro a
    have ha := hr a
    cases h : request a <;> simp [h, Event.isRequest, resultsOf] at ha ⊢
  cases hs : s.seq with
  | idle =>
    refine ⟨[request s.address], State.issue_trace_of_idle hs cmd _, fun past a => ⟨[request a], ?_, ?_⟩⟩
    · rw [hquiet, hquiet]
    · dsimp only
      rw [State.issue_of_idle s cmd _ hs, State.issue_of_idle (s.relabel s.seq past a) cmd _ hs]
      rfl
  | wait latched =>
    refine ⟨[], by simp [State.issue_of_wait s cmd latched _ hs], fun past a => ⟨[], rfl, ?_⟩⟩
    dsimp only
    rw [State.issue_of_wait s cmd latched _ hs, State.issue_of_wait (s.relabel s.seq past a) cmd latched _ hs,
      List.append_nil]

/-- A look for a read puts nothing on record. -/
theorem blindAt_advanceRead (s : State) : BlindAt State.advanceRead s := by
  refine ⟨[], by simp, fun past a => ⟨[], rfl, ?_⟩⟩
  rw [State.advanceRead_relabel, State.advanceRead_seq, List.append_nil]

/-- The same for a probe. -/
theorem blindAt_advanceProbe (s : State) : BlindAt State.advanceProbe s := by
  refine ⟨[], by simp, fun past a => ⟨[], rfl, ?_⟩⟩
  rw [State.advanceProbe_relabel, State.advanceProbe_seq, List.append_nil]

/-- An event is put on record whatever is there. -/
theorem blindAt_record (s : State) (e : Event) : BlindAt (State.record · e) s :=
  ⟨[e], rfl, fun _ _ => ⟨[e], rfl, rfl⟩⟩

/-- A continuation that sees only registers does not see record and address. -/
theorem SeesOnlyRegisters.blindAt {α : Type} {k : α → State → State} (hk : SeesOnlyRegisters k) (v : α) (s : State) :
    BlindAt (k v) s := by
  obtain ⟨r, h⟩ := hk v s
  have hself : k v s = (k v s).relabel .idle (s.trace ++ [.done r]) s.address := h s.seq s.trace s.address
  refine ⟨[.done r], congrArg State.trace hself, fun past a => ⟨[.done r], rfl, ?_⟩⟩
  rw [h, congrArg State.seq hself]
  rfl

/-- A read of a command that sees only registers does not depend on record and address. -/
theorem blindAt_readThen {k : Byte → State → State} (hk : SeesOnlyRegisters k) (s : State) (cmd : CmdWord) :
    BlindAt (State.readThen · cmd k) s := by
  have hlook : BlindAt (fun u => (u.issue cmd (.readRequest u.address)).advanceRead) s :=
    (blindAt_advanceRead _).comp (blindAt_issue s cmd fun _ => rfl)
  cases hb : s.nextRead with
  | none => exact hlook.congr fun past a => by simp [State.readThen, hb]
  | some b =>
    exact ((hk.blindAt b _).comp ((blindAt_record _ (.readAnswer b)).comp hlook)).congr fun past a => by
      simp [State.readThen, hb]

/-- The same for a probe. -/
theorem blindAt_probeThen {k : Bool → State → State} (hk : SeesOnlyRegisters k) (s : State) (cmd : CmdWord) :
    BlindAt (State.probeThen · cmd k) s := by
  have hlook : BlindAt (fun u => (u.issue cmd (.probeRequest u.address)).advanceProbe) s :=
    (blindAt_advanceProbe _).comp (blindAt_issue s cmd fun _ => rfl)
  cases hb : s.nextProbe with
  | none => exact hlook.congr fun past a => by simp [State.probeThen, hb]
  | some ack =>
    exact ((hk.blindAt ack _).comp ((blindAt_record _ (.probeAnswer ack)).comp hlook)).congr fun past a => by
      simp [State.probeThen, hb]

/-- No command depends on record and address. -/
theorem exec_blindAt (i : Instr) (s : State) : ∃ f, (∀ u, exec i u = .next (f u)) ∧ BlindAt f s := by
  cases i with
  | begin n => exact ⟨_, exec_begin n, blindAt_probeThen (begin_seesOnlyRegisters n) s _⟩
  | isconn a => exact ⟨_, exec_isconn a, blindAt_probeThen isconn_seesOnlyRegisters s _⟩
  | init a => exact ⟨_, exec_init a, blindAt_readThen init_seesOnlyRegisters s _⟩
  | haschg a => exact ⟨_, exec_haschg a, blindAt_readThen haschg_seesOnlyRegisters s _⟩
  | update a => exact ⟨_, exec_update a, blindAt_readThen (pollWith_seesOnlyRegisters deltaU) s _⟩
  | updsgl a => exact ⟨_, exec_updsgl a, blindAt_readThen (pollWith_seesOnlyRegisters deltaS) s _⟩
  | key a => exact ⟨_, exec_key a, ⟨[_], rfl, fun _ _ => ⟨[_], rfl, rfl⟩⟩⟩

/-- Settles O37: `exec_blindAt`. -/
theorem historyAndAddressHaveNoInfluence : Obligations.HistoryAndAddressHaveNoInfluence := by
  unfold Obligations.HistoryAndAddressHaveNoInfluence
  intro i s t past a h
  obtain ⟨f, hexec, events, hevents, hfollow⟩ := exec_blindAt i s
  obtain ⟨events', hresults, hf⟩ := hfollow past a
  obtain rfl : f s = t := Host.Outcome.next.inj ((hexec s).symm.trans h)
  refine ⟨_, (hexec _).trans (congrArg Host.Outcome.next hf), rfl, events, events', hevents, rfl, hresults.symm⟩

end Sys2Proof.Machine
